-- ==== Sys2Proof/Word.lean ====
section
/-! DEFINITION. The Word of the UM core, and the byte of its I/O channels and program image. -/

namespace Sys2Proof

/-- "Word: an unsigned 32-bit integer" (00_scope.md R8, R11). Bit 0 is the least significant (R10). -/
abbrev Word := BitVec 32

/-- A byte of the program image (R54) or of the input and output channels (R41, R43). -/
abbrev Byte := BitVec 8

end Sys2Proof
end

