-- ==== Sys2Proof/Config.lean ====
section
/-! DEFINITION. The implementation parameters of 00_scope.md R8 that are fixed for every run. The parameters that
a run takes as inputs (the sink configuration, the storage capacity) are fields of State: a claim about every
state is then a claim about every value of them. No free value without a body is needed: the spec leaves no result of an
instruction undefined. -/

namespace Sys2Proof.Config

/-- The identity a model records (R2). -/
def identity : String := "UM core (pro465/icfp2006)"

/-- One more than the largest Word: identifiers and offsets are below it (R8, R50), and the next-candidate takes this
value when no identifier is left (R130). -/
abbrev wordLimit : Nat := 4294967296

/-- The greatest length of an array, and of a program image, in Words (R8, R31, R222). -/
abbrev maxLength : Nat := 4294967295

/-- What the Loader does with an image whose length is not a multiple of 4: the parameter LOADER_TAIL_POLICY
(R8, R222; 93_implementation_defined.md U2). -/
inductive TailPolicy where
  | reject
  | zeroPad
deriving DecidableEq, Repr

/-- This hardware rejects such an image (R8, R222; 90_conflicts.md C2). DESIGN CHOICE of the spec, safe: entry 11. -/
def loaderTailPolicy : TailPolicy := .reject

end Sys2Proof.Config
end

