-- ==== Sys2Proof/Syntax.lean ====
section
/-! DEFINITION. The instructions, one constructor for each row of spec/opcode_table.json (30_encoding.md R78). -/

namespace Sys2Proof

/-- The eight general registers, `r0` to `r7`; every selector value names one (R21, R75). -/
inductive Reg where
  | r0 | r1 | r2 | r3 | r4 | r5 | r6 | r7
deriving DecidableEq, Repr

/-- An instruction. The operands are named A, B and C after the selector fields (R14, R74). -/
inductive Instr where
  /-- Opcode 0, Conditional Move (R110). -/
  | cmov (a b c : Reg)
  /-- Opcode 1, Array Index (R112). -/
  | index (a b c : Reg)
  /-- Opcode 2, Array Amend (R114). -/
  | amend (a b c : Reg)
  /-- Opcode 3, Addition (R116). -/
  | add (a b c : Reg)
  /-- Opcode 4, Multiplication (R118). -/
  | mul (a b c : Reg)
  /-- Opcode 5, Division (R120). -/
  | div (a b c : Reg)
  /-- Opcode 6, Bitwise NAND (R122). -/
  | nand (a b c : Reg)
  /-- Opcode 7, the reserved value, which halts (R95). -/
  | halt
  /-- Opcode 8, Allocation (R134). -/
  | alloc (b c : Reg)
  /-- Opcode 9, Deallocation (R140). -/
  | free (c : Reg)
  /-- Opcode 10, Output (R158). -/
  | out (c : Reg)
  /-- Opcode 11, Input (R160); its mnemonic, `in`, is a word of Lean. -/
  | inp (c : Reg)
  /-- Opcode 12, Load Program (R170). -/
  | loadprog (b c : Reg)
  /-- Opcode 13, Load Immediate (R174): the register A' and the 25 bits of the immediate (R72). -/
  | li (a : Reg) (imm : BitVec 25)
  /-- The undefined opcode values 14 and 15, which halt too (R79, R95): the table's second `halt` row. The operand is the
  opcode value, which the encoder needs (R83) and no meaning reads (entry 17). -/
  | haltUndef (op : BitVec 4)
deriving DecidableEq, Repr

end Sys2Proof
end

