-- ==== Sys2Proof/WellFormed.lean ====
section
/-! DEFINITION. Which terms of Instr stand for an instruction word. Every register operand has a 3-bit selector and
every 25-bit immediate is encodable (30_encoding.md R75), so the types say all but one thing. -/

namespace Sys2Proof

/-- An instruction is well formed when the encoding functions of R83 admit its operands: the second halt row's opcode
value is 14 or 15 (R79, R83). -/
def WellFormed (i : Instr) : Bool :=
  match i with
  | .haltUndef op => op == 14#4 || op == 15#4
  | .cmov _ _ _ => true
  | .index _ _ _ => true
  | .amend _ _ _ => true
  | .add _ _ _ => true
  | .mul _ _ _ => true
  | .div _ _ _ => true
  | .nand _ _ _ => true
  | .halt => true
  | .alloc _ _ => true
  | .free _ => true
  | .out _ => true
  | .inp _ => true
  | .loadprog _ _ => true
  | .li _ _ => true

end Sys2Proof
end

