-- ==== Sys2Proof/Decode.lean ====
section
/-! DEFINITION. Decoding (30_encoding.md R70-R77), the byte order of the program image (20_memory.md R54), and the
encoding functions (R83). -/

namespace Sys2Proof

/-! ### Fields -/

/-- The register a 3-bit selector names: every value names one (R75). -/
def regOfSelector (sel : BitVec 3) : Reg :=
  match sel.toNat with
  | 0 => .r0
  | 1 => .r1
  | 2 => .r2
  | 3 => .r3
  | 4 => .r4
  | 5 => .r5
  | 6 => .r6
  | _ => .r7

/-- The selector of a register: its number (R21). -/
def selectorOfReg (r : Reg) : BitVec 3 :=
  match r with
  | .r0 => 0#3
  | .r1 => 1#3
  | .r2 => 2#3
  | .r3 => 3#3
  | .r4 => 4#3
  | .r5 => 5#3
  | .r6 => 6#3
  | .r7 => 7#3

/-- Bits 31:28, the opcode of every instruction (R70). -/
def opcodeField (w : Word) : BitVec 4 := w.extractLsb' 28 4

/-- The register selected by bits 8:6, A of format S (R71). -/
def fieldA (w : Word) : Reg := regOfSelector (w.extractLsb' 6 3)

/-- The register selected by bits 5:3, B of format S (R71). -/
def fieldB (w : Word) : Reg := regOfSelector (w.extractLsb' 3 3)

/-- The register selected by bits 2:0, C of format S (R71). -/
def fieldC (w : Word) : Reg := regOfSelector (w.extractLsb' 0 3)

/-- The register selected by bits 27:25, A' of format I (R72; 90_conflicts.md C3). -/
def fieldA' (w : Word) : Reg := regOfSelector (w.extractLsb' 25 3)

/-- Bits 24:0, the immediate of format I (R72). -/
def fieldImm (w : Word) : BitVec 25 := w.extractLsb' 0 25

/-! ### Decoding a Word -/

/-- The decoder of R77 with the opcode map of R78: total over all words, and no bit is read that the format does not
name (R76; entry 13). -/
def decode (w : Word) : Instr :=
  match (opcodeField w).toNat with
  | 0 => .cmov (fieldA w) (fieldB w) (fieldC w)
  | 1 => .index (fieldA w) (fieldB w) (fieldC w)
  | 2 => .amend (fieldA w) (fieldB w) (fieldC w)
  | 3 => .add (fieldA w) (fieldB w) (fieldC w)
  | 4 => .mul (fieldA w) (fieldB w) (fieldC w)
  | 5 => .div (fieldA w) (fieldB w) (fieldC w)
  | 6 => .nand (fieldA w) (fieldB w) (fieldC w)
  | 7 => .halt
  | 8 => .alloc (fieldB w) (fieldC w)
  | 9 => .free (fieldC w)
  | 10 => .out (fieldC w)
  | 11 => .inp (fieldC w)
  | 12 => .loadprog (fieldB w) (fieldC w)
  | 13 => .li (fieldA' w) (fieldImm w)
  | _ => .haltUndef (opcodeField w)

/-! ### Bytes -/

/-- The Word of four image bytes, the first the most significant (R54, R221). -/
def wordOfBytes (b0 b1 b2 b3 : Byte) : Word := b0 ++ b1 ++ b2 ++ b3

/-- The four image bytes of a Word, in file order (R54). -/
def bytesOfWord (w : Word) : List Byte :=
  [w.extractLsb' 24 8, w.extractLsb' 16 8, w.extractLsb' 8 8, w.extractLsb' 0 8]

/-- Why a byte string holds no instruction at its head. -/
inductive DecodeError where
  /-- Fewer than four bytes are left, and every instruction is one Word (R70). Safe: no word is refused, only a part of
  one. -/
  | truncated
deriving DecidableEq, Repr

/-- The instruction at the head of a string of image bytes, and the bytes after it: total, it refuses only a string that
is shorter than one Word. -/
def decodeBytes (bytes : List Byte) : Except DecodeError (Instr × List Byte) :=
  match bytes with
  | b0 :: b1 :: b2 :: b3 :: rest => .ok (decode (wordOfBytes b0 b1 b2 b3), rest)
  | _ => .error .truncated

/-! ### The instruction of a table word -/

/-- The Word whose bits below `nbits` are those of `w` and whose other bits are 0. -/
def tableWord (nbits w : Nat) : Word := BitVec.ofNat 32 (w % 2 ^ nbits)

/-- The instruction that the decoder reads from the `nbits` bits of `w`; none for more bits than an instruction has
(R70). -/
def decodeTableWord (nbits w : Nat) : Option Instr :=
  if nbits ≤ 32 then
    match decodeBytes (bytesOfWord (tableWord nbits w)) with
    | .ok (i, _) => some i
    | .error _ => none
  else none

/-! ### Encoding -/

/-- `enc_S` of R83: the ignored bits are 0. -/
def encodeS (op : BitVec 4) (a b c : BitVec 3) : Word := op ++ 0#19 ++ a ++ b ++ c

/-- `enc_I` of R83. -/
def encodeI (a : BitVec 3) (imm : BitVec 25) : Word := 13#4 ++ a ++ imm

/-- `enc_H` of R83. -/
def encodeH (op : BitVec 4) : Word := op ++ 0#28

/-- The word of an instruction, by the encoding functions of R83 (selectors that an opcode does not use are 0, R74). -/
def encode (i : Instr) : Word :=
  match i with
  | .cmov a b c => encodeS 0#4 (selectorOfReg a) (selectorOfReg b) (selectorOfReg c)
  | .index a b c => encodeS 1#4 (selectorOfReg a) (selectorOfReg b) (selectorOfReg c)
  | .amend a b c => encodeS 2#4 (selectorOfReg a) (selectorOfReg b) (selectorOfReg c)
  | .add a b c => encodeS 3#4 (selectorOfReg a) (selectorOfReg b) (selectorOfReg c)
  | .mul a b c => encodeS 4#4 (selectorOfReg a) (selectorOfReg b) (selectorOfReg c)
  | .div a b c => encodeS 5#4 (selectorOfReg a) (selectorOfReg b) (selectorOfReg c)
  | .nand a b c => encodeS 6#4 (selectorOfReg a) (selectorOfReg b) (selectorOfReg c)
  | .halt => encodeH 7#4
  | .alloc b c => encodeS 8#4 0#3 (selectorOfReg b) (selectorOfReg c)
  | .free c => encodeS 9#4 0#3 0#3 (selectorOfReg c)
  | .out c => encodeS 10#4 0#3 0#3 (selectorOfReg c)
  | .inp c => encodeS 11#4 0#3 0#3 (selectorOfReg c)
  | .loadprog b c => encodeS 12#4 0#3 (selectorOfReg b) (selectorOfReg c)
  | .li a imm => encodeI (selectorOfReg a) imm
  | .haltUndef op => encodeH op

/-- The bits an opcode's format names (R71-R76): an instruction's meaning depends on these bits of its word and on
no other. -/
def namedBits (op : BitVec 4) : Word :=
  match op.toNat with
  | 0 => 0xF00001FF#32
  | 1 => 0xF00001FF#32
  | 2 => 0xF00001FF#32
  | 3 => 0xF00001FF#32
  | 4 => 0xF00001FF#32
  | 5 => 0xF00001FF#32
  | 6 => 0xF00001FF#32
  | 8 => 0xF000003F#32
  | 9 => 0xF0000007#32
  | 10 => 0xF0000007#32
  | 11 => 0xF0000007#32
  | 12 => 0xF000003F#32
  | 13 => 0xFFFFFFFF#32
  | _ => 0xF0000000#32

/-! ### The opcode table -/

/-- One row of the machine-readable opcode map (R78): a word is of the row when its bits under `mask` are `pattern`. -/
structure OpcodeRow where
  mnemonic : String
  pattern : Word
  mask : Word
deriving DecidableEq, Repr

/-- The rows of spec/opcode_table.json, in its order (R78). -/
def opcodeTable : List OpcodeRow :=
  [⟨"cmov", 0x00000000#32, 0xF0000000#32⟩, ⟨"index", 0x10000000#32, 0xF0000000#32⟩,
   ⟨"amend", 0x20000000#32, 0xF0000000#32⟩, ⟨"add", 0x30000000#32, 0xF0000000#32⟩,
   ⟨"mul", 0x40000000#32, 0xF0000000#32⟩, ⟨"div", 0x50000000#32, 0xF0000000#32⟩,
   ⟨"nand", 0x60000000#32, 0xF0000000#32⟩, ⟨"halt", 0x70000000#32, 0xF0000000#32⟩,
   ⟨"alloc", 0x80000000#32, 0xF0000000#32⟩, ⟨"free", 0x90000000#32, 0xF0000000#32⟩,
   ⟨"out", 0xA0000000#32, 0xF0000000#32⟩, ⟨"in", 0xB0000000#32, 0xF0000000#32⟩,
   ⟨"loadprog", 0xC0000000#32, 0xF0000000#32⟩, ⟨"li", 0xD0000000#32, 0xF0000000#32⟩,
   ⟨"halt", 0xE0000000#32, 0xE0000000#32⟩]

/-- A word is of a row. -/
def OpcodeRow.matches (row : OpcodeRow) (w : Word) : Bool := w &&& row.mask == row.pattern

/-- The mnemonic of an instruction, as the opcode table spells it (R78, R84). -/
def mnemonicOf (i : Instr) : String :=
  match i with
  | .cmov _ _ _ => "cmov"
  | .index _ _ _ => "index"
  | .amend _ _ _ => "amend"
  | .add _ _ _ => "add"
  | .mul _ _ _ => "mul"
  | .div _ _ _ => "div"
  | .nand _ _ _ => "nand"
  | .halt => "halt"
  | .alloc _ _ => "alloc"
  | .free _ => "free"
  | .out _ => "out"
  | .inp _ => "in"
  | .loadprog _ _ => "loadprog"
  | .li _ _ => "li"
  | .haltUndef _ => "halt"

end Sys2Proof
end

