-- ==== Sys2Proof/Machine/State.lean ====
section
/-! DEFINITION. The state of the UM core (10_state.md R20), its reset value (70_reset_and_hazards.md R223), and the
reasons a step can stop. Plain data throughout. -/

namespace Sys2Proof.Machine

/-! ### Registers -/

/-- The register file: eight Words, none hardwired, none with an alias (R21, R22). -/
structure Regs where
  r0 : Word
  r1 : Word
  r2 : Word
  r3 : Word
  r4 : Word
  r5 : Word
  r6 : Word
  r7 : Word
deriving DecidableEq, Repr

/-! ### The Memory Bank -/

/-- An array: its length in Words, fixed from creation (R31), and its non-zero Words as (offset, Word) pairs with
offsets strictly rising. An array is created zero-filled (R60), so an offset that is not listed holds 0 (entry 1). -/
structure BankArray where
  len : Nat
  cells : List (Nat × Word)
deriving DecidableEq, Repr

/-- The Memory Bank: a finite map from identifier to array (R31), as (identifier, array) pairs with identifiers strictly
rising. An identifier that is not listed is not present. -/
abbrev Memory := List (Nat × BankArray)

/-- The keys of a list of pairs rise strictly and are below `limit`. -/
def keysRiseBelow {α : Type} (limit : Nat) : List (Nat × α) → Bool
  | [] => true
  | [(k, _)] => k < limit
  | (k, _) :: (k', v') :: rest => k < k' && keysRiseBelow limit ((k', v') :: rest)

/-- The canonical form of an array: the length is a Word, and the listed offsets rise, are inside the array and hold
non-zero Words. -/
def BankArray.wf (a : BankArray) : Bool :=
  a.len < Config.wordLimit && keysRiseBelow a.len a.cells && a.cells.all (fun c => c.2 != 0#32)

/-- The canonical form of the Memory Bank: the identifiers rise and are Words, and every array is in canonical form.
Equal banks are then equal data. -/
def Memory.wf (m : Memory) : Bool :=
  keysRiseBelow Config.wordLimit m && m.all (fun e => e.2.wf)

/-! ### The run state and the channels -/

/-- The reasons of `Fatal` (60_exceptions.md R191), in the order of their codes 1 to 11. -/
inductive FatalReason where
  | fetchOutOfBounds
  | indexNotFound
  | indexOutOfBounds
  | amendNotFound
  | amendOutOfBounds
  | divisionByZero
  | freeNotFound
  | freeZero
  | outputOutOfRange
  | loadNotFound
  | resourceExhausted
deriving DecidableEq, Repr

/-- The run state (R38). `awaitInput` carries the register the waiting Input will write: the pending input of R223, which
exists exactly in that state (entry 16). -/
inductive RunState where
  | running
  | awaitInput (dest : Reg)
  | halted
  | aborted (reason : FatalReason)
deriving DecidableEq, Repr

/-- The host's answer to an input request (R43). -/
inductive Answer where
  | byte (b : Byte)
  | endOfStream
deriving DecidableEq, Repr

/-- The channel events of a run (R41-R43, R45). -/
inductive Event where
  | out (b : Byte)
  | flush
  | inReq
  | answer (a : Answer)
deriving DecidableEq, Repr

/-! ### The state -/

/-- The state of the UM core: the record of R20 with the output staging of R223, and three fields of the model's own
(`trace`, `hostAnswers`, `storageGrants`) that hold what the world outside has seen and will supply. -/
structure State where
  /-- The general registers `x[0]` to `x[7]` (R21). -/
  regs : Regs
  /-- The instruction pointer: an offset in Words into array 0 (R24). -/
  pc : Word
  /-- The Memory Bank (R31). -/
  bank : Memory
  /-- The allocator's free pool, a finite set as a strictly rising list (R36). -/
  pool : List Nat
  /-- The allocator's next-candidate, 1 to 2^32 (R36, R130). -/
  next : Nat
  /-- The run state (R38). -/
  run : RunState
  /-- The configuration input dedicated_sink (R39). -/
  dedicatedSink : Bool
  /-- The output staging: at most one byte, and empty at every instruction boundary (R152, R223). -/
  outStaging : Option Byte
  /-- The model's own: the channel events so far, oldest first; the observation of R45 (entry 4). -/
  trace : List Event
  /-- The model's own: the answers the host has ready and the core has not taken yet, drawn freely (R154; entry 5). -/
  hostAnswers : List Answer
  /-- The model's own: how many more storage requests the implementation will meet, `none` for no limit. It stands for
  the open parameter MEM_CAPACITY (R59, R135; 93_implementation_defined.md P1; entry 6). -/
  storageGrants : Option Nat
deriving DecidableEq, Repr

/-- The pending input of R223: the register that a waiting Input will write, none outside AwaitInput. -/
def State.pendingInput (s : State) : Option Reg :=
  match s.run with
  | .awaitInput dest => some dest
  | .running => none
  | .halted => none
  | .aborted _ => none

/-! ### Why a step can stop -/

/-- Why `step` answers no next state. No instruction raises one of these: a fatal condition of R191 is a next state with
`run` = Aborted (R190; entry 7). -/
inductive Fault where
  /-- Raised by `step` in the final state Halted, where no step is enabled (R99): the success indication of R44. Safe: the
  spec gives no step there (entry 8). -/
  | halted
  /-- Raised by `step` in the final state Aborted, where no step is enabled (R99): the failure indication of R44 with its
  reason. Safe: the spec gives no step there (entry 8). -/
  | aborted (reason : FatalReason)
  /-- Raised by `step` when the bank has no array 0, which is present at every moment of a run (R32). Safe: no run
  reaches such a state (entry 9). -/
  | programAbsent
deriving DecidableEq, Repr

/-- Why `step` gives no meaning. -/
inductive Refusal where
  /-- Raised by an arm of `exec` for an instruction that has no meaning yet; no arm raises it now. Safe: nothing can be
  proved of a refused step. -/
  | notModelled (mnemonic : String)
deriving DecidableEq, Repr

/-- The outcome of a step or of an instruction. -/
abbrev Result := Host.Outcome State Fault Refusal

/-! ### Reset -/

/-- The state after boot (R223). Boot is the only reset and the host supplies the image (R220): this is the boot of the
empty image (R101, R221; entry 2), to standard output (entry 3), with no host answer ready (entry 5) and no storage limit
(entry 6). `boot` in Machine/Boot.lean gives the state for any image. -/
def State.reset : State where
  regs := ⟨0#32, 0#32, 0#32, 0#32, 0#32, 0#32, 0#32, 0#32⟩
  pc := 0#32
  bank := [(0, ⟨0, []⟩)]
  pool := []
  next := 1
  run := .running
  dedicatedSink := false
  outStaging := none
  trace := []
  hostAnswers := []
  storageGrants := none

end Sys2Proof.Machine
end

