-- ==== Sys2Proof/Machine/Ops.lean ====
section
/-! DEFINITION. The named operations that the meanings share: registers, the Memory Bank, the allocator, the channels,
raising a fatal condition, and the fetch. -/

namespace Sys2Proof.Machine

/-! ### Registers -/

/-- `x[i]` read (00_scope.md R12). -/
def State.reg (s : State) (r : Reg) : Word :=
  match r with
  | .r0 => s.regs.r0
  | .r1 => s.regs.r1
  | .r2 => s.regs.r2
  | .r3 => s.regs.r3
  | .r4 => s.regs.r4
  | .r5 => s.regs.r5
  | .r6 => s.regs.r6
  | .r7 => s.regs.r7

/-- The register file with one register replaced. -/
def Regs.write (g : Regs) (r : Reg) (v : Word) : Regs :=
  match r with
  | .r0 => { g with r0 := v }
  | .r1 => { g with r1 := v }
  | .r2 => { g with r2 := v }
  | .r3 => { g with r3 := v }
  | .r4 => { g with r4 := v }
  | .r5 => { g with r5 := v }
  | .r6 => { g with r6 := v }
  | .r7 => { g with r7 := v }

/-- `x[i] <- v` (00_scope.md R12). -/
def State.setReg (s : State) (r : Reg) (v : Word) : State := { s with regs := s.regs.write r v }

/-! ### The instruction pointer and the run state -/

/-- `pc <- target` (00_scope.md R12): no bound is checked (10_state.md R26). -/
def State.setPc (s : State) (target : Word) : State := { s with pc := target }

/-- The fetch advance, modulo 2^32 (40_fetch_decode_execute.md R92). -/
def State.advancePc (s : State) : State := s.setPc (s.pc + 1#32)

/-- `run <- r` (10_state.md R38). -/
def State.setRun (s : State) (r : RunState) : State := { s with run := r }

/-! ### Finite maps as rising lists of pairs -/

/-- The value a list of pairs gives a key. -/
def lookupKey {α : Type} (k : Nat) : List (Nat × α) → Option α
  | [] => none
  | (k', v) :: rest => if k' = k then some v else lookupKey k rest

/-- Give a key a value, in a list of pairs with rising keys. -/
def putKey {α : Type} (k : Nat) (v : α) : List (Nat × α) → List (Nat × α)
  | [] => [(k, v)]
  | (k', v') :: rest =>
    if k < k' then (k, v) :: (k', v') :: rest
    else if k = k' then (k, v) :: rest
    else (k', v') :: putKey k v rest

/-- Remove a key from a list of pairs. -/
def dropKey {α : Type} (k : Nat) : List (Nat × α) → List (Nat × α)
  | [] => []
  | (k', v') :: rest => if k' = k then dropKey k rest else (k', v') :: dropKey k rest

/-! ### Arrays -/

/-- The Word at an offset; an offset that is not listed holds 0, as the array was created (20_memory.md R60). -/
def BankArray.word (a : BankArray) (off : Nat) : Word := (lookupKey off a.cells).getD 0#32

/-- The array with one Word replaced; a zero Word is not listed, so the canonical form is kept. The length stays
(20_memory.md R53). -/
def BankArray.setWord (a : BankArray) (off : Nat) (v : Word) : BankArray :=
  { a with cells := if v = 0#32 then dropKey off a.cells else putKey off v a.cells }

/-- A new array of `n` zero Words (20_memory.md R60). -/
def BankArray.zeros (n : Nat) : BankArray := ⟨n, []⟩

/-- The non-zero Words of a list whose first Word has the offset `k`. -/
def cellsFrom (k : Nat) : List Word → List (Nat × Word)
  | [] => []
  | w :: ws => if w = 0#32 then cellsFrom (k + 1) ws else (k, w) :: cellsFrom (k + 1) ws

/-- The array that holds a list of Words. -/
def BankArray.ofWords (ws : List Word) : BankArray := ⟨ws.length, cellsFrom 0 ws⟩

/-- The Words of an array in order: the view of 10_state.md R31, "a sequence of Words indexed from 0". -/
def BankArray.toWords (a : BankArray) : List Word := (List.range a.len).map a.word

/-! ### The Memory Bank -/

/-- The array an identifier names, if it is present (00_scope.md R12). -/
def Memory.find (m : Memory) (id : Nat) : Option BankArray := lookupKey id m

/-- `present(id)` (00_scope.md R12). -/
def Memory.present (m : Memory) (id : Nat) : Bool := (Memory.find m id).isSome

/-- `bank[id] <- a`: an array created under an identifier, or the one under it replaced. -/
def Memory.put (m : Memory) (id : Nat) (a : BankArray) : Memory := putKey id a m

/-- `delete bank[id]` (42_bank_management.md R138). -/
def Memory.delete (m : Memory) (id : Nat) : Memory := dropKey id m

/-- `MemRead((id, off), 1)`: the array must exist, then the offset be inside it (20_memory.md R52). The reasons are the
calling instruction's. -/
def Memory.read (m : Memory) (notFound outOfBounds : FatalReason) (id off : Nat) : Except FatalReason Word :=
  match Memory.find m id with
  | none => .error notFound
  | some a => if a.len ≤ off then .error outOfBounds else .ok (a.word off)

/-- `MemWrite((id, off), 1, v)`: the same two checks, then that one Word (20_memory.md R53). -/
def Memory.write (m : Memory) (notFound outOfBounds : FatalReason) (id off : Nat) (v : Word) :
    Except FatalReason Memory :=
  match Memory.find m id with
  | none => .error notFound
  | some a => if a.len ≤ off then .error outOfBounds else .ok (Memory.put m id (a.setWord off v))

/-- The bank of a state replaced. -/
def State.setBank (s : State) (m : Memory) : State := { s with bank := m }

/-- The Word a state holds at an address (identifier, offset), if the address exists: how claims read memory. -/
def State.word? (s : State) (id off : Nat) : Option Word :=
  match Memory.find s.bank id with
  | none => none
  | some a => if a.len ≤ off then none else some (a.word off)

/-- `len(id)`, defined when the identifier is present (00_scope.md R12). -/
def State.len? (s : State) (id : Nat) : Option Nat := (Memory.find s.bank id).map BankArray.len

/-! ### Fatal conditions -/

/-- `raise Fatal(reason)`: the run ends in Aborted, and nothing else changes (60_exceptions.md R190, R192). The state
given is the one the faulting instruction started from, its `pc` advanced by the fetch; a fetch fault gives the state before
the advance (R91). No handler is entered and nothing is saved (R198). -/
def raiseFatal (reason : FatalReason) (s : State) : State := s.setRun (.aborted reason)

/-- The outcome of an instruction that starts in `s` and either raises a fatal condition, with none of its writes
committed (60_exceptions.md R192), or completes. -/
def commit (s : State) : Except FatalReason State → Result
  | .error reason => .next (raiseFatal reason s)
  | .ok t => .next t

/-- The numeric code of a reason (60_exceptions.md R191). -/
def FatalReason.code : FatalReason → Nat
  | .fetchOutOfBounds => 1
  | .indexNotFound => 2
  | .indexOutOfBounds => 3
  | .amendNotFound => 4
  | .amendOutOfBounds => 5
  | .divisionByZero => 6
  | .freeNotFound => 7
  | .freeZero => 8
  | .outputOutOfRange => 9
  | .loadNotFound => 10
  | .resourceExhausted => 11

/-! ### The allocator -/

/-- One storage request to the implementation: refused, or met, with one request fewer to come (20_memory.md R59,
42_bank_management.md R135; entry 6). -/
def State.takeStorage (s : State) : Except FatalReason State :=
  match s.storageGrants with
  | none => .ok s
  | some 0 => .error .resourceExhausted
  | some (k + 1) => .ok { s with storageGrants := some k }

/-- The "skip occupied" loop of 42_bank_management.md R131, from candidate `n`. `fuel` bounds the rounds; a bank of that
many arrays cannot occupy more candidates. -/
def skipOccupied (m : Memory) (fuel n : Nat) : Nat :=
  match fuel with
  | 0 => n
  | k + 1 => if n < Config.wordLimit && Memory.present m n then skipOccupied m k (n + 1) else n

/-- The pool and the next-candidate after `id` is handed out: the pool's smallest member, else the lowest unoccupied
identifier above `id` (42_bank_management.md R131). -/
def refill (m : Memory) (pool : List Nat) (id : Nat) : List Nat × Nat :=
  match pool with
  | p :: rest => (rest, p)
  | [] => ([], skipOccupied m m.length (id + 1))

/-- The pool and the next-candidate replaced. -/
def State.setAllocator (s : State) (pool : List Nat) (next : Nat) : State := { s with pool := pool, next := next }

/-- `Alloc(n)`: the identifier handed out and the state with the new array (42_bank_management.md R131; entry 14). -/
def alloc (n : Nat) (s : State) : Except FatalReason (Nat × State) :=
  if Config.wordLimit ≤ s.next then .error .resourceExhausted
  else
    match s.takeStorage with
    | .error reason => .error reason
    | .ok s' =>
      .ok (s.next,
        (s'.setAllocator (refill s.bank s.pool s.next).1 (refill s.bank s.pool s.next).2).setBank
          (Memory.put s.bank s.next (BankArray.zeros n)))

/-- Add an identifier to a set held as a strictly rising list. -/
def insertId (id : Nat) : List Nat → List Nat
  | [] => [id]
  | p :: rest =>
    if id < p then id :: p :: rest
    else if id = p then p :: rest
    else p :: insertId id rest

/-- The pool and the next-candidate after `id` is freed (42_bank_management.md R138). -/
def giveBack (pool : List Nat) (next id : Nat) : List Nat × Nat :=
  if id < next then (if next < Config.wordLimit then insertId next pool else pool, id)
  else (insertId id pool, next)

/-- `Free(id)` (42_bank_management.md R138): FREE_ZERO is checked first (60_exceptions.md R196). -/
def free (id : Nat) (s : State) : Except FatalReason State :=
  if id = 0 then .error .freeZero
  else if Memory.present s.bank id then
    .ok ((s.setAllocator (giveBack s.pool s.next id).1 (giveBack s.pool s.next id).2).setBank (Memory.delete s.bank id))
  else .error .freeNotFound

/-- The replacement of array 0 by a copy of array `id` (44_program_and_immediate.md R170, R171). An array is a value, so
the copy shares nothing with its source (20_memory.md R60). -/
def copyToProgram (id : Nat) (s : State) : Except FatalReason State :=
  match Memory.find s.bank id with
  | none => .error .loadNotFound
  | some a =>
    match s.takeStorage with
    | .error reason => .error reason
    | .ok s' => .ok (s'.setBank (Memory.put s.bank 0 a))

/-! ### The channels -/

/-- Send a channel event (10_state.md R45). -/
def State.send (s : State) (e : Event) : State := { s with trace := s.trace ++ [e] }

/-- Stage one output byte (43_io.md R152). -/
def State.stage (s : State) (b : Byte) : State := { s with outStaging := some b }

/-- Flush the output staging: its byte, if there is one, is delivered as `Out(b)` (43_io.md R151, R152). -/
def State.deliverStaged (s : State) : State :=
  match s.outStaging with
  | none => s
  | some b => { s.send (.out b) with outStaging := none }

/-- `Emit(b)`: stage the byte, then flush at once (43_io.md R151). -/
def emit (b : Byte) (s : State) : State := (s.stage b).deliverStaged

/-- The flush before a read, sent only when output goes to standard output (43_io.md R161). The event carries no data, and
the staging is empty at every instruction boundary (10_state.md R42; entry 18). -/
def flushBeforeRead (s : State) : State := if s.dedicatedSink then s else s.send .flush

/-- The request of `Receive()`: `InReq`, and the core waits (43_io.md R153). -/
def requestInput (dest : Reg) (s : State) : State := (s.send .inReq).setRun (.awaitInput dest)

/-- The Word an answer puts into the register: the byte zero-extended, or all ones at end of stream (43_io.md R160). -/
def answerWord : Answer → Word
  | .byte b => b.setWidth 32
  | .endOfStream => 0xFFFFFFFF#32

/-- The host's answer completes the waiting Input (40_fetch_decode_execute.md R98, 43_io.md R153, R160). -/
def receiveAnswer (dest : Reg) (a : Answer) (s : State) : State :=
  ((s.send (.answer a)).setReg dest (answerWord a)).setRun .running

/-- A step of the wait: the next answer the host has ready is taken, or, while there is none, nothing happens
(40_fetch_decode_execute.md R98, 43_io.md R155; entries 5 and 10). -/
def awaitAnswer (dest : Reg) (s : State) : State :=
  match s.hostAnswers with
  | [] => s
  | a :: rest => receiveAnswer dest a { s with hostAnswers := rest }

/-- The host has an answer ready (10_state.md R43): the host's side of the input channel, not a step of the core. -/
def State.hostAnswer (s : State) (a : Answer) : State := { s with hostAnswers := s.hostAnswers ++ [a] }

/-! ### The fetch -/

/-- What the fetch finds at `pc` in array 0. -/
inductive Fetched where
  | word (w : Word)
  | outOfBounds
  | programAbsent
deriving DecidableEq, Repr

/-- The Word at offset `pc` of array 0 (40_fetch_decode_execute.md R90), or the bound check's failure (R91). Array 0 is
always present (R32); that it is not is a case of its own (entry 9). -/
def fetch (s : State) : Fetched :=
  match Memory.find s.bank 0 with
  | none => .programAbsent
  | some a => if a.len ≤ s.pc.toNat then .outOfBounds else .word (a.word s.pc.toNat)

/-- The state with a Word stored where the next fetch reads it: in array 0 at `pc`, the array made long enough to hold
it, and the core Running (entry 2). -/
def State.placeWord (s : State) (w : Word) : State :=
  let a := (Memory.find s.bank 0).getD (BankArray.zeros 0)
  { s with
    bank := Memory.put s.bank 0 ({ a with len := max a.len (s.pc.toNat + 1) }.setWord s.pc.toNat w)
    run := .running }

end Sys2Proof.Machine
end

