-- ==== Sys2Proof/Machine/Operands.lean ====
section
/-! DEFINITION. The operand forms: a register operand is a register's value, read before any write of the instruction
(00_scope.md R13, 30_encoding.md R75), and format I has the one immediate. The arithmetic of opcodes 3 to 6 and the value
forms of the other instructions stand beside them. -/

namespace Sys2Proof.Machine

/-- A register's value used as an array identifier (20_memory.md R50). -/
def State.identifier (s : State) (r : Reg) : Nat := (s.reg r).toNat

/-- A register's value used as an offset in Words (20_memory.md R50). -/
def State.offset (s : State) (r : Reg) : Nat := (s.reg r).toNat

/-- A register's value used as a length in Words (42_bank_management.md R134). -/
def State.length (s : State) (r : Reg) : Nat := (s.reg r).toNat

/-- The immediate of Load Immediate: `zext_32(w[24:0])` (30_encoding.md R75). -/
def immediateWord (imm : BitVec 25) : Word := imm.setWidth 32

/-- The Word of an identifier, as Allocation writes it into a register (42_bank_management.md R134). -/
def identifierWord (id : Nat) : Word := BitVec.ofNat 32 id

/-- The byte of Output: the low 8 bits of a value of at most 255, none of a larger value (43_io.md R158). -/
def outputByte (v : Word) : Option Byte := if 255 < v.toNat then none else some (v.extractLsb' 0 8)

/-- Addition modulo 2^32 (41_three_register.md R105, R116). -/
def addWords (x y : Word) : Word := BitVec.ofNat 32 ((x.toNat + y.toNat) % 2 ^ 32)

/-- Multiplication modulo 2^32: the low half of the unsigned product (R105, R118). -/
def mulWords (x y : Word) : Word := BitVec.ofNat 32 (x.toNat * y.toNat % 2 ^ 32)

/-- Unsigned division, truncated; none when the divisor is 0 (R120). -/
def divWords (x y : Word) : Option Word :=
  if y = 0#32 then none else some (BitVec.ofNat 32 (x.toNat / y.toNat))

/-- Bitwise NOT of the bitwise AND (R122). -/
def nandWords (x y : Word) : Word := ~~~(x &&& y)

end Sys2Proof.Machine
end

