-- ==== Sys2Proof/Machine/BankManagement.lean ====
section
/-! DEFINITION. The meanings of opcodes 8 and 9 (42_bank_management.md). -/

namespace Sys2Proof.Machine

/-- Allocation: a new zero-filled array of register C Words, its identifier into register B (R134). -/
def execAlloc (b c : Reg) (s : State) : Result :=
  commit s ((alloc (s.length c) s).map fun r => r.2.setReg b (identifierWord r.1))

/-- Deallocation: the array register C names is removed and its identifier made reusable (R140). -/
def execFree (c : Reg) (s : State) : Result := commit s (free (s.identifier c) s)

end Sys2Proof.Machine
end

