-- ==== Sys2Proof/Machine/Halt.lean ====
section
/-! DEFINITION. The meanings of opcode values 7, 14 and 15 (40_fetch_decode_execute.md R95). -/

namespace Sys2Proof.Machine

/-- A clean end of the run: nothing but the run state is written (R95). -/
def endRun (s : State) : State := s.setRun .halted

/-- Halt, opcode 7 (R95). -/
def execHalt (s : State) : Result := .next (endRun s)

/-- Halt, opcode values 14 and 15: identical to opcode 7 (R79, R95). -/
def execHaltUndef (s : State) : Result := .next (endRun s)

end Sys2Proof.Machine
end

