-- ==== Sys2Proof/Machine/Io.lean ====
section
/-! DEFINITION. The meanings of opcodes 10 and 11 (43_io.md). -/

namespace Sys2Proof.Machine

/-- Output: the byte in register C goes to the sink; a value above 255 is fatal, and nothing is emitted (R158, R159). -/
def execOut (c : Reg) (s : State) : Result :=
  match outputByte (s.reg c) with
  | none => .next (raiseFatal .outputOutOfRange s)
  | some b => .next (emit b s)

/-- Input: the flush before the read, then the request; the core waits for the host's answer, which completes the
instruction in a later step (R160, R161; 92_eei_decisions.md D2). -/
def execInp (c : Reg) (s : State) : Result := .next (requestInput c (flushBeforeRead s))

end Sys2Proof.Machine
end

