-- ==== Sys2Proof/Machine/ProgramImmediate.lean ====
section
/-! DEFINITION. The meanings of opcodes 12 and 13 (44_program_and_immediate.md). -/

namespace Sys2Proof.Machine

/-- Load Program: if register B is not 0, array 0 becomes a copy of array B; in every case `pc` gets register C (R170). -/
def execLoadprog (b c : Reg) (s : State) : Result :=
  if s.reg b = 0#32 then .next (s.setPc (s.reg c))
  else commit s ((copyToProgram (s.identifier b) s).map fun t => t.setPc (s.reg c))

/-- Load Immediate: register A' gets the 25-bit immediate, zero-extended (R174). -/
def execLi (a : Reg) (imm : BitVec 25) (s : State) : Result := .next (s.setReg a (immediateWord imm))

end Sys2Proof.Machine
end

