-- ==== Sys2Proof/Machine/Flags.lean ====
section
/-! DEFINITION. The UM core has no flags, condition codes or predicate registers, and no instruction writes a status bit
(10_state.md R28). What stands here is the one condition an instruction tests: a general register being non-zero. -/

namespace Sys2Proof.Machine

/-- The condition of Conditional Move: the whole 32-bit value is not 0 (R28, R110). -/
def conditionHolds (v : Word) : Bool := v != 0#32

end Sys2Proof.Machine
end

