-- ==== Sys2Proof/Machine/ThreeRegister.lean ====
section
/-! DEFINITION. The meanings of opcodes 0 to 6 (41_three_register.md). `pc` was advanced by the fetch (R25). -/

namespace Sys2Proof.Machine

/-- Conditional Move: if register C is not 0, register A gets register B (R110). -/
def execCmov (a b c : Reg) (s : State) : Result :=
  .next (if conditionHolds (s.reg c) then s.setReg a (s.reg b) else s)

/-- Array Index: register A gets the Word at offset C of array B (R112). -/
def execIndex (a b c : Reg) (s : State) : Result :=
  commit s
    ((Memory.read s.bank .indexNotFound .indexOutOfBounds (s.identifier b) (s.offset c)).map fun v => s.setReg a v)

/-- Array Amend: array A at offset B gets register C (R114). -/
def execAmend (a b c : Reg) (s : State) : Result :=
  commit s
    ((Memory.write s.bank .amendNotFound .amendOutOfBounds (s.identifier a) (s.offset b) (s.reg c)).map fun m =>
      s.setBank m)

/-- Addition (R116). -/
def execAdd (a b c : Reg) (s : State) : Result := .next (s.setReg a (addWords (s.reg b) (s.reg c)))

/-- Multiplication (R118). -/
def execMul (a b c : Reg) (s : State) : Result := .next (s.setReg a (mulWords (s.reg b) (s.reg c)))

/-- Division (R120). -/
def execDiv (a b c : Reg) (s : State) : Result :=
  match divWords (s.reg b) (s.reg c) with
  | none => .next (raiseFatal .divisionByZero s)
  | some q => .next (s.setReg a q)

/-- Bitwise NAND (R122). -/
def execNand (a b c : Reg) (s : State) : Result := .next (s.setReg a (nandWords (s.reg b) (s.reg c)))

end Sys2Proof.Machine
end

