-- ==== Sys2Proof/Machine/Dispatch.lean ====
section
/-! DEFINITION. The dispatch (40_fetch_decode_execute.md R93, R94): one arm per constructor, one meaning per arm. -/

namespace Sys2Proof.Machine

/-- The execution of a decoded instruction in a state whose `pc` the fetch has advanced (R25, R94). -/
def exec (i : Instr) (s : State) : Host.Outcome State Fault Refusal :=
  match i with
  | .cmov a b c => Sys2Proof.Machine.execCmov a b c s
  | .index a b c => Sys2Proof.Machine.execIndex a b c s
  | .amend a b c => Sys2Proof.Machine.execAmend a b c s
  | .add a b c => Sys2Proof.Machine.execAdd a b c s
  | .mul a b c => Sys2Proof.Machine.execMul a b c s
  | .div a b c => Sys2Proof.Machine.execDiv a b c s
  | .nand a b c => Sys2Proof.Machine.execNand a b c s
  | .halt => Sys2Proof.Machine.execHalt s
  | .alloc b c => Sys2Proof.Machine.execAlloc b c s
  | .free c => Sys2Proof.Machine.execFree c s
  | .out c => Sys2Proof.Machine.execOut c s
  | .inp c => Sys2Proof.Machine.execInp c s
  | .loadprog b c => Sys2Proof.Machine.execLoadprog b c s
  | .li a imm => Sys2Proof.Machine.execLi a imm s
  | .haltUndef _ => Sys2Proof.Machine.execHaltUndef s

end Sys2Proof.Machine
end

