-- ==== Sys2Proof/Machine/Step.lean ====
section
/-! DEFINITION. One step of the UM core (40_fetch_decode_execute.md R94, R97-R99). -/

namespace Sys2Proof.Machine

/-- A step while Running: fetch, advance `pc`, decode, execute (R94); a fetch outside array 0 is fatal with `pc` as it was
(R91). -/
def stepRunning (s : State) : Host.Outcome State Fault Refusal :=
  match fetch s with
  | .word w => exec (decode w) s.advancePc
  | .outOfBounds => .next (raiseFatal .fetchOutOfBounds s)
  | .programAbsent => .fault .programAbsent

/-- One step. While AwaitInput only the host's answer can act (R98); in a final state no step is enabled (R99). -/
def step (s : State) : Host.Outcome State Fault Refusal :=
  match s.run with
  | .running => stepRunning s
  | .awaitInput dest => .next (awaitAnswer dest s)
  | .halted => .fault .halted
  | .aborted reason => .fault (.aborted reason)

/-- The state whose next step fetches and runs the instruction with the bits of `w` (entry 2). -/
def State.withFetchWord (s : State) (nbits w : Nat) : State := s.placeWord (tableWord nbits w)

end Sys2Proof.Machine
end

