-- ==== Sys2Proof/Machine/Boot.lean ====
section
/-! DEFINITION. Boot, the only reset (70_reset_and_hazards.md R220-R223): the image's bytes become the Words of array 0. -/

namespace Sys2Proof.Machine

/-- Why an image is rejected at boot, so that the run never starts (R222). -/
inductive BootRejection where
  /-- The image's length is not a multiple of 4 (90_conflicts.md C2). Safe: no run exists to make a claim about. -/
  | partialWord
  /-- The image has more than 2^32 - 1 Words. Safe: as above. -/
  | tooLong
deriving DecidableEq, Repr

/-- A last chunk of one to three bytes, filled with zero bytes: what the policy ZeroPad makes of it (R222). -/
def paddedWord (chunk : List Byte) : Word :=
  wordOfBytes (chunk.getD 0 0#8) (chunk.getD 1 0#8) (chunk.getD 2 0#8) (chunk.getD 3 0#8)

/-- The Words of an image, four bytes each, the first the most significant (R221). -/
def imageWords (policy : Config.TailPolicy) : List Byte → Except BootRejection (List Word)
  | [] => .ok []
  | b0 :: b1 :: b2 :: b3 :: rest => (imageWords policy rest).map fun ws => wordOfBytes b0 b1 b2 b3 :: ws
  | chunk =>
    match policy with
    | .reject => .error .partialWord
    | .zeroPad => .ok [paddedWord chunk]

/-- The state after boot for the Words of an image and the host's configuration: every other field as R223 gives it. -/
def bootState (ws : List Word) (dedicatedSink : Bool) : State :=
  { State.reset with bank := [(0, BankArray.ofWords ws)], dedicatedSink := dedicatedSink }

/-- Boot: check the image, convert it, set every field (R220). -/
def boot (image : List Byte) (dedicatedSink : Bool) : Except BootRejection State :=
  match imageWords Config.loaderTailPolicy image with
  | .error e => .error e
  | .ok ws => if Config.maxLength < ws.length then .error .tooLong else .ok (bootState ws dedicatedSink)

end Sys2Proof.Machine
end

