-- ==== Sys2Proof/Machine/Run.lean ====
section
/-! DEFINITION. The run: the step repeated, under fuel, with a host that answers (40_fetch_decode_execute.md R97, R100;
43_io.md R154). -/

namespace Sys2Proof.Machine

/-- What a run under fuel comes to. -/
inductive RunResult where
  /-- A state in which `step` stops: the frozen state, and why (R99). -/
  | stopped (frozen : State) (why : Fault)
  /-- A state in which `step` has no meaning; no instruction is refused. -/
  | refused (frozen : State) (why : Refusal)
  /-- Every step of the fuel was taken, to this state: nothing is said yet of the end of the run (R100). -/
  | outOfFuel (s : State)
deriving DecidableEq, Repr

/-- The host's side of the input channel for a whole run: the answer to the InReq that `k` answers came before, `none` when the
host never answers that one (43_io.md R154, R155). The sequence may be infinite, for example `EndOfStream` forever. It is an
input to the run and no state of the core (entry 5). -/
abbrev HostInput := Nat → Option Answer

/-- Is the event an answer of the host? -/
def Event.isAnswer : Event → Bool
  | .answer _ => true
  | .out _ => false
  | .flush => false
  | .inReq => false

/-- How many answers the core has taken. -/
def State.answersTaken (s : State) : Nat := s.trace.countP Event.isAnswer

/-- The host acts only while the core waits and has no answer ready: it answers the pending InReq, or not (R98; entry 5). -/
def State.supply (host : HostInput) (s : State) : State :=
  match s.run, s.hostAnswers, host s.answersTaken with
  | .awaitInput _, [], some a => s.hostAnswer a
  | _, _, _ => s

/-- The run from a state with a host, for at most `fuel` steps (R97, R100). The fuel is the model's only: the core has no limit
and no watchdog. Answers that the state has ready are taken before the host is asked (entry 5). -/
def runFor (host : HostInput) (fuel : Nat) (s : State) : RunResult :=
  match fuel with
  | 0 => .outOfFuel s
  | k + 1 =>
    match step (s.supply host) with
    | .next t => runFor host k t
    | .fault why => .stopped s why
    | .refused why => .refused s why

end Sys2Proof.Machine
end

