-- ==== Sys2Proof/Safety.lean ====
section
/-! DEFINITION. The terms in which claims speak: the status channel, the invariant of the machine, the states a run
reaches, the observation of a run, what an instruction leaves unchanged, and the relations of whole-machine claims. -/

namespace Sys2Proof.Machine

/-! ### The status channel -/

/-- What the host learns from the end of a run (10_state.md R44, 60_exceptions.md R195). -/
inductive Indication where
  | success
  | failure (reason : FatalReason)
deriving DecidableEq, Repr

/-- The final indication, none while the run has not ended (R44, R195). -/
def State.indication (s : State) : Option Indication :=
  match s.run with
  | .running => none
  | .awaitInput _ => none
  | .halted => some .success
  | .aborted reason => some (.failure reason)

/-- The offset of the faulting instruction in the frozen state of an aborted run (60_exceptions.md R193). -/
def State.faultOffset (s : State) : Option Word :=
  match s.run with
  | .running => none
  | .awaitInput _ => none
  | .halted => none
  | .aborted reason => some (if reason = .fetchOutOfBounds then s.pc else s.pc - 1#32)

/-! ### The invariant -/

/-- M of 42_bank_management.md R132: the greatest of the next-candidate and the pool's members. -/
def State.poolTop (s : State) : Nat := s.pool.foldl max s.next

/-- The allocator's invariant (R132), in the form that every step keeps. Clause 2 of R132 says that every identifier above
M is unused; after the identifiers were once exhausted every one above M is in use instead (entry 14). -/
structure AllocatorInv (s : State) : Prop where
  next_pos : 1 ≤ s.next
  next_le : s.next ≤ Config.wordLimit
  pool_rises : s.pool.Pairwise (· < ·)
  pool_above : ∀ p ∈ s.pool, s.next < p ∧ p < Config.wordLimit
  unused_iff : ∀ id, 1 ≤ id → id ≤ s.poolTop → id < Config.wordLimit →
    (Memory.present s.bank id = false ↔ id = s.next ∨ id ∈ s.pool)
  above_top : (∀ id, s.poolTop < id → id < Config.wordLimit → Memory.present s.bank id = false) ∨
    (∀ id, s.poolTop < id → id < Config.wordLimit → Memory.present s.bank id = true)

/-- The invariant of the machine: the bank is in canonical form, array 0 is present (10_state.md R32), the allocator's
invariant holds (R132), and the output staging is empty (43_io.md R152). -/
structure MachineInv (s : State) : Prop where
  bank_wf : Memory.wf s.bank = true
  program_present : Memory.present s.bank 0 = true
  allocator : AllocatorInv s
  staging_empty : s.outStaging = none

/-- The states a run reaches, from the boot of any image, with any host and any storage capacity: by steps of the core and
by answers the host has ready (10_state.md R40, R43, R45). -/
inductive Reachable : State → Prop where
  | boot (image : List Byte) (dedicatedSink : Bool) (answers : List Answer) (grants : Option Nat) (s : State)
      (h : boot image dedicatedSink = .ok s) : Reachable { s with hostAnswers := answers, storageGrants := grants }
  | step (s t : State) (hs : Reachable s) (h : step s = .next t) : Reachable t
  | answer (s : State) (a : Answer) (hs : Reachable s) : Reachable (s.hostAnswer a)

/-- Clause 2 of 42_bank_management.md R132 as the spec writes it: the unused identifiers are the pool's, the next-candidate, and
all above M. It is not a part of the invariant (entry 14). -/
def UnusedSetAsWritten (s : State) : Prop :=
  ∀ id, 1 ≤ id → id < Config.wordLimit → (s.len? id = none ↔ id ∈ s.pool ∨ id = s.next ∨ s.poolTop < id)

/-! ### The observation of a run -/

/-- The observation of a run (10_state.md R45, 40_fetch_decode_execute.md R100): the end with its indication and the frozen
state, whose `trace` holds the events; or that the run has no end, with its events numbered from 0, `none` beyond the last
one when they are finitely many. -/
inductive Observation where
  | ends (indication : Indication) (frozen : State)
  | noEnd (event : Nat → Option Event)

/-- The run from a state with a host never ends: it uses up every fuel (R100). The host may have answered every InReq of it, or
never answer one (43_io.md R154, R155; entry 10). -/
def HasNoEnd (host : HostInput) (s : State) : Prop := ∀ fuel, ∃ t, runFor host fuel s = .outOfFuel t

/-- The run from a state with a host has the observation. -/
def Observes (host : HostInput) (s : State) : Observation → Prop
  | .ends indication frozen => ∃ fuel why, runFor host fuel s = .stopped frozen why ∧ frozen.indication = some indication
  | .noEnd event => HasNoEnd host s ∧
      ∀ k e, event k = some e ↔ ∃ fuel t, runFor host fuel s = .outOfFuel t ∧ t.trace[k]? = some e

/-! ### Frames -/

/-- Every register but those listed reads as before. -/
def RegsKeptExcept (rs : List Reg) (s t : State) : Prop := ∀ r, r ∉ rs → t.reg r = s.reg r

/-- Every address reads as before, and every array has the length it had. -/
def MemoryKept (s t : State) : Prop := (∀ id off, t.word? id off = s.word? id off) ∧ ∀ id, t.len? id = s.len? id

/-- Every address outside the one given reads as before, and every array has the length it had. -/
def MemoryKeptExcept (id off : Nat) (s t : State) : Prop :=
  (∀ j o, ¬ (j = id ∧ o = off) → t.word? j o = s.word? j o) ∧ ∀ j, t.len? j = s.len? j

/-- Every array but the one named reads as before, word for word and in its length. -/
def ArraysKeptExcept (id : Nat) (s t : State) : Prop :=
  (∀ j o, j ≠ id → t.word? j o = s.word? j o) ∧ ∀ j, j ≠ id → t.len? j = s.len? j

/-- The pool and the next-candidate are as before. -/
def AllocatorKept (s t : State) : Prop := t.pool = s.pool ∧ t.next = s.next

/-- No storage was asked of the implementation. -/
def StorageKept (s t : State) : Prop := t.storageGrants = s.storageGrants

/-- One storage request was met. -/
def StorageTaken (s t : State) : Prop := t.storageGrants = s.storageGrants.map (· - 1)

/-- No channel event happened, nothing is staged, and no host answer was taken. -/
def ChannelsKept (s t : State) : Prop :=
  t.trace = s.trace ∧ t.outStaging = s.outStaging ∧ t.hostAnswers = s.hostAnswers

/-- The run state and the configuration are as before. -/
def RunKept (s t : State) : Prop := t.run = s.run ∧ t.dedicatedSink = s.dedicatedSink

/-- The whole change is that register `a` holds `v`. -/
def OnlyRegisterWritten (a : Reg) (v : Word) (s t : State) : Prop :=
  t.reg a = v ∧ RegsKeptExcept [a] s t ∧ t.pc = s.pc ∧ MemoryKept s t ∧ AllocatorKept s t ∧ StorageKept s t ∧
    ChannelsKept s t ∧ RunKept s t

/-! ### Relations of whole-machine claims -/

/-- The offsets the instruction at `pc` can be fetched from: Running, with a Word at `pc` in array 0. -/
def Fetches (s : State) (w : Word) : Prop := s.run = .running ∧ s.word? 0 s.pc.toNat = some w

/-- The events of a trace but the flushes, which carry no data (10_state.md R42). -/
def withoutFlushes (es : List Event) : List Event := es.filter (fun e => e != .flush)

/-- Two states that may differ in dedicated_sink, and in their traces by Flush events only (43_io.md R161). -/
def SameButFlushes (s t : State) : Prop :=
  withoutFlushes t.trace = withoutFlushes s.trace ∧
    t = { s with dedicatedSink := t.dedicatedSink, trace := t.trace }

end Sys2Proof.Machine
end

