-- ==== Sys2Proof/Certificates/Slice0/Obligations.lean ====
section
/-! DEFINITION. The statements for the provers. Each says what a rule of spec/ says the machine does, or, where its docstring says
so, what the model chose. `x[r]` is `s.reg r`; an address is a pair (identifier, offset), read by `State.word?`; the length of
an array is `State.len?`. A fatal condition's next state is written out as the whole record: the state the instruction
started from, with `run` = Aborted(reason). -/

open Sys2Proof Sys2Proof.Machine

/-! ### Encoding -/

namespace Sys2Proof.Claims

/-- The number of a register (10_state.md R21). -/
def regNumber (r : Reg) : Nat :=
  match r with
  | .r0 => 0
  | .r1 => 1
  | .r2 => 2
  | .r3 => 3
  | .r4 => 4
  | .r5 => 5
  | .r6 => 6
  | .r7 => 7

/-- `enc_S` of 30_encoding.md R83 as a number: the fields do not overlap, so OR is addition. -/
def encSValue (op a b c : Nat) : Nat := op * 2 ^ 28 + a * 2 ^ 6 + b * 2 ^ 3 + c

/-- The word of an instruction as a number, by the three encoding functions of R83. -/
def encodingValue (i : Instr) : Nat :=
  match i with
  | .cmov a b c => encSValue 0 (regNumber a) (regNumber b) (regNumber c)
  | .index a b c => encSValue 1 (regNumber a) (regNumber b) (regNumber c)
  | .amend a b c => encSValue 2 (regNumber a) (regNumber b) (regNumber c)
  | .add a b c => encSValue 3 (regNumber a) (regNumber b) (regNumber c)
  | .mul a b c => encSValue 4 (regNumber a) (regNumber b) (regNumber c)
  | .div a b c => encSValue 5 (regNumber a) (regNumber b) (regNumber c)
  | .nand a b c => encSValue 6 (regNumber a) (regNumber b) (regNumber c)
  | .halt => 7 * 2 ^ 28
  | .alloc b c => encSValue 8 0 (regNumber b) (regNumber c)
  | .free c => encSValue 9 0 0 (regNumber c)
  | .out c => encSValue 10 0 0 (regNumber c)
  | .inp c => encSValue 11 0 0 (regNumber c)
  | .loadprog b c => encSValue 12 0 (regNumber b) (regNumber c)
  | .li a imm => 13 * 2 ^ 28 + regNumber a * 2 ^ 25 + imm.toNat
  | .haltUndef op => op.toNat * 2 ^ 28

/-- The bit of a word with opcode value `op` that 30_encoding.md R76 says is ignored. -/
def IgnoredBit (op bit : Nat) : Prop :=
  (op ≤ 6 ∧ 9 ≤ bit ∧ bit ≤ 27) ∨ ((op = 8 ∨ op = 12) ∧ 6 ≤ bit ∧ bit ≤ 27) ∨
    ((op = 9 ∨ op = 10 ∨ op = 11) ∧ 3 ≤ bit ∧ bit ≤ 27) ∨ ((op = 7 ∨ op = 14 ∨ op = 15) ∧ bit ≤ 27)

end Sys2Proof.Claims

open Sys2Proof.Claims

/-- R83: the encoder gives the word that the encoding functions give, and decoding that word gives the instruction back,
for every instruction and every operand. -/
def Obligations.EncodingsInvertDecoding : Prop :=
  ∀ i : Instr, WellFormed i = true → (encode i).toNat = encodingValue i ∧ decode (encode i) = i

/-- Encoding a decoded word gives the word back with the bits its format does not name cleared (30_encoding.md sections 1
and 6): so no bit that a format names is dropped, and decoding gives a well-formed instruction. -/
def Obligations.DecodingKeepsEveryNamedBit : Prop :=
  ∀ w : Word, encode (decode w) = w &&& namedBits (opcodeField w) ∧ WellFormed (decode w) = true

/-- R76: flipping an ignored bit of a word does not change the instruction it decodes to. -/
def Obligations.IgnoredBitsHaveNoEffect : Prop :=
  ∀ (w : Word) (bit : Nat), IgnoredBit (opcodeField w).toNat bit → decode (w ^^^ BitVec.twoPow 32 bit) = decode w

/-- R78: every word is of exactly one row of the opcode table, and decodes to that row's instruction. -/
def Obligations.EveryWordIsOfOneTableRow : Prop :=
  ∀ w : Word, ∃ row ∈ opcodeTable, row.matches w = true ∧ mnemonicOf (decode w) = row.mnemonic ∧
    ∀ row' ∈ opcodeTable, row'.matches w = true → row' = row

/-- Words written out in spec/95_test_vectors.md decode to the instructions they are said to be. -/
def Obligations.SpecWordsDecode : Prop :=
  decode 0x00000053#32 = .cmov .r1 .r2 .r3 ∧ decode 0x1000019C#32 = .index .r6 .r3 .r4 ∧
  decode 0x200000B4#32 = .amend .r2 .r6 .r4 ∧ decode 0x3123400A#32 = .add .r0 .r1 .r2 ∧
  decode 0x40000123#32 = .mul .r4 .r4 .r3 ∧ decode 0x500000C8#32 = .div .r3 .r1 .r0 ∧
  decode 0x600000C0#32 = .nand .r3 .r0 .r0 ∧ decode 0x7FFFFFFF#32 = .halt ∧ decode 0x80000011#32 = .alloc .r2 .r1 ∧
  decode 0x90000002#32 = .free .r2 ∧ decode 0xA0000006#32 = .out .r6 ∧ decode 0xB0000001#32 = .inp .r1 ∧
  decode 0xC0000017#32 = .loadprog .r2 .r7 ∧ decode 0xD1ABCDEF#32 = .li .r0 0x1ABCDEF#25 ∧
  decode 0xF1234567#32 = .haltUndef 15#4

/-! ### The step -/

/-- R92: while Running, with the Word `w` at `pc` in array 0, the step is the decoded instruction's execution in the state
whose `pc` is advanced, and nothing is added around it. -/
def Obligations.StepRunsTheFetchedInstruction : Prop :=
  ∀ (s : State) (w : Word) (i : Instr), s.run = .running → s.word? 0 s.pc.toNat = some w → decode w = i →
    step s = exec i { s with pc := s.pc + 1#32 }

/-- R91: a fetch at or beyond the end of array 0 aborts, and `pc` keeps the offending offset. -/
def Obligations.FetchPastTheEndAborts : Prop :=
  ∀ (s : State) (n : Nat), s.run = .running → s.len? 0 = some n → n ≤ s.pc.toNat →
    step s = .next { s with run := .aborted .fetchOutOfBounds }

/-- R99: no step is enabled in a final state. -/
def Obligations.FinalStatesHaveNoStep : Prop :=
  ∀ (s t : State) (reason : FatalReason), s.run = .halted ∨ s.run = .aborted reason → step s ≠ .next t

/-- R80: every instruction answers a next state in every state; none is refused and none stops the model. -/
def Obligations.EveryInstructionAnswersANextState : Prop :=
  ∀ (i : Instr) (s : State), ∃ t, exec i s = .next t

/-- While the run has not ended, every step from a state with the invariant answers a next state (60_exceptions.md R197:
a step completes, halts, raises a fatal condition or waits). That a wait with no answer ready is a step that changes nothing
is the model's choice (entry 10). -/
def Obligations.UnendedRunAlwaysSteps : Prop :=
  ∀ s : State, MachineInv s → s.run = .running ∨ (∃ c, s.run = .awaitInput c) → ∃ t, step s = .next t

/-! ### Three-register instructions -/

/-- R110: Conditional Move. -/
def Obligations.ConditionalMove : Prop :=
  ∀ (a b c : Reg) (s : State), ∃ t, exec (.cmov a b c) s = .next t ∧
    (s.reg c ≠ 0#32 → OnlyRegisterWritten a (s.reg b) s t) ∧ (s.reg c = 0#32 → t = s)

/-- R112: Array Index reads the Word at (x[B], x[C]) into register A, or aborts: the identifier is checked first, then the
offset. -/
def Obligations.ArrayIndex : Prop :=
  ∀ (a b c : Reg) (s : State),
    (∀ v, s.word? (s.reg b).toNat (s.reg c).toNat = some v →
      ∃ t, exec (.index a b c) s = .next t ∧ OnlyRegisterWritten a v s t) ∧
    (s.len? (s.reg b).toNat = none → exec (.index a b c) s = .next { s with run := .aborted .indexNotFound }) ∧
    (∀ n, s.len? (s.reg b).toNat = some n → n ≤ (s.reg c).toNat →
      exec (.index a b c) s = .next { s with run := .aborted .indexOutOfBounds })

/-- R114: Array Amend writes x[C] at (x[A], x[B]) and nothing else, or aborts. -/
def Obligations.ArrayAmend : Prop :=
  ∀ (a b c : Reg) (s : State),
    (∀ n, s.len? (s.reg a).toNat = some n → (s.reg b).toNat < n →
      ∃ t, exec (.amend a b c) s = .next t ∧ t.word? (s.reg a).toNat (s.reg b).toNat = some (s.reg c) ∧
        MemoryKeptExcept (s.reg a).toNat (s.reg b).toNat s t ∧ RegsKeptExcept [] s t ∧ t.pc = s.pc ∧
        AllocatorKept s t ∧ StorageKept s t ∧ ChannelsKept s t ∧ RunKept s t) ∧
    (s.len? (s.reg a).toNat = none → exec (.amend a b c) s = .next { s with run := .aborted .amendNotFound }) ∧
    (∀ n, s.len? (s.reg a).toNat = some n → n ≤ (s.reg b).toNat →
      exec (.amend a b c) s = .next { s with run := .aborted .amendOutOfBounds })

/-- R116: Addition, modulo 2^32. -/
def Obligations.AdditionWraps : Prop :=
  ∀ (a b c : Reg) (s : State), ∃ t v, exec (.add a b c) s = .next t ∧ OnlyRegisterWritten a v s t ∧
    v.toNat = ((s.reg b).toNat + (s.reg c).toNat) % 2 ^ 32

/-- R118: Multiplication, modulo 2^32. -/
def Obligations.MultiplicationWraps : Prop :=
  ∀ (a b c : Reg) (s : State), ∃ t v, exec (.mul a b c) s = .next t ∧ OnlyRegisterWritten a v s t ∧
    v.toNat = (s.reg b).toNat * (s.reg c).toNat % 2 ^ 32

/-- R120: unsigned Division, truncated; a zero divisor aborts, whatever the dividend is. -/
def Obligations.DivisionTruncates : Prop :=
  ∀ (a b c : Reg) (s : State),
    (s.reg c ≠ 0#32 → ∃ t v, exec (.div a b c) s = .next t ∧ OnlyRegisterWritten a v s t ∧
      v.toNat = (s.reg b).toNat / (s.reg c).toNat) ∧
    (s.reg c = 0#32 → exec (.div a b c) s = .next { s with run := .aborted .divisionByZero })

/-- R122: Bitwise NAND, bit by bit. -/
def Obligations.NandIsBitwise : Prop :=
  ∀ (a b c : Reg) (s : State), ∃ t v, exec (.nand a b c) s = .next t ∧ OnlyRegisterWritten a v s t ∧
    ∀ k, k < 32 → v.getLsbD k = !((s.reg b).getLsbD k && (s.reg c).getLsbD k)

/-! ### Halt -/

/-- R95: the three halting opcode values end the run cleanly, identically, and write nothing else. -/
def Obligations.HaltEndsTheRunCleanly : Prop :=
  ∀ (op : BitVec 4) (s : State), exec .halt s = .next { s with run := .halted } ∧
    exec (.haltUndef op) s = .next { s with run := .halted }

/-! ### Bank management -/

/-- R134 and R131: Allocation, when an identifier is left and the storage request is met (`storageGrants` renders the open
parameter MEM_CAPACITY, entry 6): the next-candidate is handed out, the new array is all zeros, and the next-candidate is
refilled from the pool's smallest member, or moves up past the occupied identifiers. The pool is a rising list, which is part
of the invariant. -/
def Obligations.AllocationTakesTheNextCandidate : Prop :=
  ∀ (b c : Reg) (s : State), s.next < 2 ^ 32 → s.storageGrants ≠ some 0 → s.pool.Pairwise (· < ·) →
    ∃ t, exec (.alloc b c) s = .next t ∧ (t.reg b).toNat = s.next ∧ RegsKeptExcept [b] s t ∧ t.pc = s.pc ∧
      t.len? s.next = some (s.reg c).toNat ∧ (∀ off, off < (s.reg c).toNat → t.word? s.next off = some 0#32) ∧
      ArraysKeptExcept s.next s t ∧ StorageTaken s t ∧ ChannelsKept s t ∧ RunKept s t ∧
      (s.pool ≠ [] → t.next ∈ s.pool ∧ (∀ p ∈ s.pool, t.next ≤ p) ∧ ∀ p, p ∈ t.pool ↔ p ∈ s.pool ∧ p ≠ t.next) ∧
      (s.pool = [] → t.pool = [] ∧ s.next < t.next ∧ t.next ≤ 2 ^ 32 ∧
        (∀ id, s.next < id → id < t.next → s.len? id ≠ none) ∧ (t.next < 2 ^ 32 → s.len? t.next = none))

/-- R135: Allocation aborts with nothing changed when no identifier is left, and when the implementation does not meet the
storage request (that a request is met or not as `storageGrants` says is the model's rendering, entry 6). -/
def Obligations.AllocationCanExhaust : Prop :=
  ∀ (b c : Reg) (s : State), s.next = 2 ^ 32 ∨ s.storageGrants = some 0 →
    exec (.alloc b c) s = .next { s with run := .aborted .resourceExhausted }

/-- R140 and R138: Deallocation removes the array x[C] names and makes its identifier reusable, or aborts. -/
def Obligations.DeallocationGivesBack : Prop :=
  ∀ (c : Reg) (s : State),
    (s.reg c ≠ 0#32 → s.len? (s.reg c).toNat ≠ none →
      ∃ t, exec (.free c) s = .next t ∧ t.len? (s.reg c).toNat = none ∧
        (∀ off, t.word? (s.reg c).toNat off = none) ∧ ArraysKeptExcept (s.reg c).toNat s t ∧ RegsKeptExcept [] s t ∧
        t.pc = s.pc ∧ StorageKept s t ∧ ChannelsKept s t ∧ RunKept s t ∧ t.next = min s.next (s.reg c).toNat ∧
        ∀ p, p ∈ t.pool ↔ p ∈ s.pool ∨ ((s.reg c).toNat < s.next ∧ s.next < 2 ^ 32 ∧ p = s.next) ∨
          (s.next ≤ (s.reg c).toNat ∧ p = (s.reg c).toNat)) ∧
    (s.reg c = 0#32 → exec (.free c) s = .next { s with run := .aborted .freeZero }) ∧
    (s.reg c ≠ 0#32 → s.len? (s.reg c).toNat = none →
      exec (.free c) s = .next { s with run := .aborted .freeNotFound })

/-- R137: from a state with the invariant, the identifier Allocation writes is not 0 and names no array before, and the
identifiers of the bank stay unique. It is also the smallest such identifier (R132). -/
def Obligations.AllocationReturnsTheSmallestUnused : Prop :=
  ∀ (b c : Reg) (s t : State), MachineInv s → s.run = .running → exec (.alloc b c) s = .next t → t.run = .running →
    t.reg b ≠ 0#32 ∧ s.len? (t.reg b).toNat = none ∧ (∀ id, id < (t.reg b).toNat → s.len? id ≠ none) ∧
    (t.bank.map Prod.fst).Nodup

/-- The first allocator property of R141: an allocation, the deallocation of its identifier, and a second allocation give the
same identifier, in every state with the invariant. -/
def Obligations.FreedIdentifierIsReusedFirst : Prop :=
  ∀ (b c d e : Reg) (s t u v : State), MachineInv s → s.run = .running → exec (.alloc b c) s = .next t → t.run = .running →
    exec (.free b) t = .next u → exec (.alloc d e) u = .next v → v.run = .running → v.reg d = t.reg b

/-- R62: while a freed identifier is absent, an access through a register that holds it aborts. -/
def Obligations.StaleIdentifierAborts : Prop :=
  ∀ (a b c : Reg) (s t : State), exec (.free c) s = .next t → t.run = .running →
    exec (.index a c b) t = .next { t with run := .aborted .indexNotFound } ∧
    exec (.amend c a b) t = .next { t with run := .aborted .amendNotFound } ∧
    exec (.free c) t = .next { t with run := .aborted .freeNotFound } ∧
    exec (.loadprog c a) t = .next { t with run := .aborted .loadNotFound }

/-- R136: an array of length 0 is present and every access to it aborts as out of bounds. -/
def Obligations.EmptyArrayAccessAborts : Prop :=
  ∀ (a b c : Reg) (s : State),
    (s.len? (s.reg b).toNat = some 0 → exec (.index a b c) s = .next { s with run := .aborted .indexOutOfBounds }) ∧
    (s.len? (s.reg a).toNat = some 0 → exec (.amend a b c) s = .next { s with run := .aborted .amendOutOfBounds })

/-! ### Input and output -/

/-- R158: Output emits the byte and nothing else, or, for a value above 255, aborts and emits nothing. -/
def Obligations.OutputEmitsOneByte : Prop :=
  ∀ (c : Reg) (s : State),
    ((s.reg c).toNat ≤ 255 → ∃ t b, exec (.out c) s = .next t ∧ b.toNat = (s.reg c).toNat ∧
      t.trace = s.trace ++ [.out b] ∧ t.outStaging = none ∧ t.hostAnswers = s.hostAnswers ∧ RegsKeptExcept [] s t ∧
      t.pc = s.pc ∧ MemoryKept s t ∧ AllocatorKept s t ∧ StorageKept s t ∧ RunKept s t) ∧
    (255 < (s.reg c).toNat → exec (.out c) s = .next { s with run := .aborted .outputOutOfRange })

/-- The request of Input (R160, R161): Flush only when output goes to standard output, then InReq, and the core waits with
nothing else changed. -/
def Obligations.InputRequestsAByte : Prop :=
  ∀ (c : Reg) (s : State), ∃ t, exec (.inp c) s = .next t ∧ t.run = .awaitInput c ∧ t.pendingInput = some c ∧
    (s.dedicatedSink = false → t.trace = s.trace ++ [.flush, .inReq]) ∧
    (s.dedicatedSink = true → t.trace = s.trace ++ [.inReq]) ∧ t.outStaging = s.outStaging ∧
    t.hostAnswers = s.hostAnswers ∧ t.dedicatedSink = s.dedicatedSink ∧ RegsKeptExcept [] s t ∧ t.pc = s.pc ∧
    MemoryKept s t ∧ AllocatorKept s t ∧ StorageKept s t

/-- The completion of Input (R160, R98): the host's answer writes the register that waits and sets the core Running again. The
answers the host has ready are the model's own field (entry 5). -/
def Obligations.AnswerCompletesInput : Prop :=
  ∀ (c : Reg) (answer : Answer) (rest : List Answer) (s : State), s.run = .awaitInput c →
    s.hostAnswers = answer :: rest →
    ∃ t, step s = .next t ∧ t.run = .running ∧ t.pendingInput = none ∧ t.trace = s.trace ++ [.answer answer] ∧
      t.hostAnswers = rest ∧ (∀ b, answer = .byte b → (t.reg c).toNat = b.toNat) ∧
      (answer = .endOfStream → t.reg c = 0xFFFFFFFF#32) ∧ RegsKeptExcept [c] s t ∧ t.pc = s.pc ∧ MemoryKept s t ∧
      AllocatorKept s t ∧ StorageKept s t ∧ t.outStaging = s.outStaging ∧ t.dedicatedSink = s.dedicatedSink

/-- The whole of Input (R160): the request and then the answer, in the two steps that the spec gives it (92_eei_decisions.md D2).
The answers the host has ready are the model's own field (entry 5). -/
def Obligations.InputReadsTheAnswer : Prop :=
  ∀ (c : Reg) (answer : Answer) (rest : List Answer) (s : State), s.hostAnswers = answer :: rest →
    ∃ t u, exec (.inp c) s = .next t ∧ step t = .next u ∧ (∀ b, answer = .byte b → (u.reg c).toNat = b.toNat) ∧
      (answer = .endOfStream → u.reg c = 0xFFFFFFFF#32) ∧ RegsKeptExcept [c] s u ∧ u.pc = s.pc ∧ MemoryKept s u ∧
      AllocatorKept s u ∧ StorageKept s u ∧ u.run = .running ∧ u.dedicatedSink = s.dedicatedSink ∧
      u.outStaging = s.outStaging ∧ u.hostAnswers = rest ∧
      u.trace = s.trace ++ (if s.dedicatedSink then [] else [.flush]) ++ [.inReq, .answer answer]

/-- A wait with no answer ready changes nothing: the model's choice (entry 10) for "stuck in AwaitInput"
(93_implementation_defined.md P5); no fetch occurs (R98). -/
def Obligations.WaitWithoutAnswerChangesNothing : Prop :=
  ∀ (c : Reg) (s : State), s.run = .awaitInput c → s.hostAnswers = [] → step s = .next s

/-- R162: channel events are only ever added, and only by an Output, by an Input, or by the host's answer to one; and only an
Input makes the core wait. -/
def Obligations.OnlyOutputAndInputMeetTheHost : Prop :=
  ∀ s t : State, step s = .next t → (∃ es, t.trace = s.trace ++ es ∧
      (es ≠ [] → (∃ w c, Fetches s w ∧ (decode w = .out c ∨ decode w = .inp c)) ∨ ∃ c, s.run = .awaitInput c)) ∧
    ∀ c, t.run = .awaitInput c → s.run = .awaitInput c ∨ ∃ w, Fetches s w ∧ decode w = .inp c

/-- R39: dedicated_sink never changes during a run. -/
def Obligations.SinkConfigurationIsFixed : Prop :=
  ∀ s t : State, step s = .next t → t.dedicatedSink = s.dedicatedSink

/-- R161: the sink configuration decides only whether Flush events appear. Two states that agree but for it, and but for the
flushes in their traces, step to states that agree so, or stop alike. -/
def Obligations.SinkConfigurationShowsOnlyAsFlushes : Prop :=
  ∀ s t : State, SameButFlushes s t →
    (∀ s', step s = .next s' → ∃ t', step t = .next t' ∧ SameButFlushes s' t') ∧
    (∀ reason, step s = .fault reason → step t = .fault reason)

/-! ### Load Program and Load Immediate -/

/-- R170 and R171: Load Program jumps; with x[B] not 0 it first replaces array 0 by a copy of array x[B], or aborts: absent
identifier first, then storage (`storageGrants` renders the open parameter MEM_CAPACITY, entry 6). -/
def Obligations.LoadProgramReplacesAndJumps : Prop :=
  ∀ (b c : Reg) (s : State),
    (s.reg b = 0#32 → exec (.loadprog b c) s = .next { s with pc := s.reg c }) ∧
    (∀ n, s.reg b ≠ 0#32 → s.len? (s.reg b).toNat = some n → s.storageGrants ≠ some 0 →
      ∃ t, exec (.loadprog b c) s = .next t ∧ t.pc = s.reg c ∧ t.len? 0 = some n ∧
        (∀ off, t.word? 0 off = s.word? (s.reg b).toNat off) ∧ ArraysKeptExcept 0 s t ∧ RegsKeptExcept [] s t ∧
        AllocatorKept s t ∧ StorageTaken s t ∧ ChannelsKept s t ∧ RunKept s t) ∧
    (s.reg b ≠ 0#32 → s.len? (s.reg b).toNat = none →
      exec (.loadprog b c) s = .next { s with run := .aborted .loadNotFound }) ∧
    (s.reg b ≠ 0#32 → s.len? (s.reg b).toNat ≠ none → s.storageGrants = some 0 →
      exec (.loadprog b c) s = .next { s with run := .aborted .resourceExhausted })

/-- R173: after Load Program replaced array 0, the next step runs the Word of the new program at the target; a target beyond its
end is caught by that step's fetch (R103). -/
def Obligations.LoadedProgramRunsNext : Prop :=
  ∀ (b c : Reg) (s t : State) (n : Nat), s.run = .running → s.reg b ≠ 0#32 → s.len? (s.reg b).toNat = some n →
    exec (.loadprog b c) s = .next t → t.run = .running →
    (∀ w, s.word? (s.reg b).toNat (s.reg c).toNat = some w →
      step t = exec (decode w) { t with pc := s.reg c + 1#32 }) ∧
    (n ≤ (s.reg c).toNat → step t = .next { t with run := .aborted .fetchOutOfBounds })

/-- R60, for the copy of Load Program: after it, a write to either array is not seen in the other. -/
def Obligations.ProgramCopyIsDeep : Prop :=
  ∀ (b c d e f : Reg) (s t u : State), s.reg b ≠ 0#32 → exec (.loadprog b c) s = .next t →
    exec (.amend d e f) t = .next u →
    (t.reg d = s.reg b → ∀ off, u.word? 0 off = t.word? 0 off) ∧
    (t.reg d = 0#32 → ∀ off, u.word? (s.reg b).toNat off = s.word? (s.reg b).toNat off)

/-- R174: Load Immediate puts the 25-bit immediate, zero-extended, into its register. -/
def Obligations.LoadImmediateZeroExtends : Prop :=
  ∀ (a : Reg) (imm : BitVec 25) (s : State), ∃ t v, exec (.li a imm) s = .next t ∧ OnlyRegisterWritten a v s t ∧
    v.toNat = imm.toNat

/-! ### Memory and instruction fetch -/

/-- R63, for one address: a Word written by Array Amend is what Array Index, which completes, then reads through the same
registers. -/
def Obligations.AmendedWordIsReadBack : Prop :=
  ∀ (a b c d : Reg) (s t : State), s.run = .running → exec (.amend a b c) s = .next t → t.run = .running →
    ∃ u, exec (.index d a b) t = .next u ∧ OnlyRegisterWritten d (s.reg c) t u

/-- R66: a Word that Array Amend writes into array 0 at the offset of the next fetch is the instruction the next step runs. -/
def Obligations.SelfModificationIsSeenByTheNextFetch : Prop :=
  ∀ (a b c : Reg) (s t : State), s.run = .running → s.reg a = 0#32 → s.reg b = s.pc →
    exec (.amend a b c) s = .next t → t.run = .running →
    step t = exec (decode (s.reg c)) { t with pc := t.pc + 1#32 }

/-- R31, the length clause: from a state with the invariant, no step changes the length of a present array other than 0, and
none but Load Program changes the length of array 0. -/
def Obligations.ArrayLengthsAreFixed : Prop :=
  ∀ (s t : State) (id n m : Nat), MachineInv s → step s = .next t → s.len? id = some n → t.len? id = some m →
    m = n ∨ (id = 0 ∧ ∃ w b c, Fetches s w ∧ decode w = .loadprog b c)

/-- R33: identifiers other than 0 are created only by Allocation and destroyed only by Deallocation. -/
def Obligations.OnlyAllocationCreatesAndOnlyFreeDestroys : Prop :=
  ∀ (s t : State) (id : Nat), id ≠ 0 → step s = .next t →
    (s.len? id = none → t.len? id ≠ none → ∃ w b c, Fetches s w ∧ decode w = .alloc b c) ∧
    (s.len? id ≠ none → t.len? id = none → ∃ w c, Fetches s w ∧ decode w = .free c ∧ (s.reg c).toNat = id)

/-- R25: no instruction but Load Program writes `pc` beyond the fetch advance. -/
def Obligations.OnlyLoadProgramWritesPc : Prop :=
  ∀ (s t : State) (w : Word), Fetches s w → (∀ b c, decode w ≠ .loadprog b c) → step s = .next t →
    t.pc = s.pc + 1#32

/-- R27: a fetch that succeeds, from a state with the invariant, never wraps the instruction pointer. -/
def Obligations.InstructionPointerNeverWraps : Prop :=
  ∀ (s : State) (w : Word), MachineInv s → Fetches s w →
    s.pc.toNat ≤ 2 ^ 32 - 2 ∧ (s.pc + 1#32).toNat = s.pc.toNat + 1

/-! ### Fatal conditions -/

/-- R192: a step that aborts commits nothing but the run state and the fetch advance of `pc`, and a fetch fault not even
that. -/
def Obligations.FaultsArePrecise : Prop :=
  ∀ (s t : State) (reason : FatalReason), step s = .next t → t.run = .aborted reason →
    t = { s with
      pc := if reason = .fetchOutOfBounds then s.pc else s.pc + 1#32
      run := .aborted reason }

/-- R193: the frozen state of an aborted run gives the offset of the faulting instruction. -/
def Obligations.FaultingInstructionIsFound : Prop :=
  ∀ (s t : State) (reason : FatalReason), step s = .next t → t.run = .aborted reason →
    t.faultOffset = some s.pc ∧ t.indication = some (.failure reason)

/-- R191, the codes: each reason has the number the table gives it, and no two share one. -/
def Obligations.ReasonCodesAreTheTables : Prop :=
  FatalReason.fetchOutOfBounds.code = 1 ∧ FatalReason.indexNotFound.code = 2 ∧
  FatalReason.indexOutOfBounds.code = 3 ∧ FatalReason.amendNotFound.code = 4 ∧
  FatalReason.amendOutOfBounds.code = 5 ∧ FatalReason.divisionByZero.code = 6 ∧
  FatalReason.freeNotFound.code = 7 ∧ FatalReason.freeZero.code = 8 ∧ FatalReason.outputOutOfRange.code = 9 ∧
  FatalReason.loadNotFound.code = 10 ∧ FatalReason.resourceExhausted.code = 11 ∧
  ∀ r r' : FatalReason, r.code = r'.code → r = r'

/-! ### Boot and reset -/

/-- R223 and R221: the state after the boot of any image that is not rejected. -/
def Obligations.BootGivesTheResetValues : Prop :=
  ∀ (image : List Byte) (sink : Bool) (s : State), boot image sink = .ok s →
    s.len? 0 = some (image.length / 4) ∧
    (∀ k, k < image.length / 4 → ∃ w, s.word? 0 k = some w ∧
      w.toNat = (image.getD (4 * k) 0#8).toNat * 2 ^ 24 + (image.getD (4 * k + 1) 0#8).toNat * 2 ^ 16 +
        (image.getD (4 * k + 2) 0#8).toNat * 2 ^ 8 + (image.getD (4 * k + 3) 0#8).toNat) ∧
    (∀ id, id ≠ 0 → s.len? id = none) ∧ (∀ r, s.reg r = 0#32) ∧ s.pc = 0#32 ∧ s.pool = [] ∧ s.next = 1 ∧
    s.run = .running ∧ s.dedicatedSink = sink ∧ s.outStaging = none ∧ s.pendingInput = none

/-- R222: an image is rejected exactly when its length is not a multiple of 4, or it has more than 2^32 - 1 Words. -/
def Obligations.BootRejectsPartialAndOversizedImages : Prop :=
  ∀ (image : List Byte) (sink : Bool),
    (∃ e, boot image sink = .error e) ↔ image.length % 4 ≠ 0 ∨ 2 ^ 32 - 1 < image.length / 4

/-- The model's choice of State.reset (entries 2, 3, 5 and 6): the boot of the empty image to standard output. -/
def Obligations.ResetIsTheBootOfTheEmptyImage : Prop := boot [] false = .ok State.reset

/-! ### The invariant -/

/-- The invariant holds at reset. -/
def Obligations.InvariantHoldsAtReset : Prop := MachineInv State.reset

/-- The invariant holds after the boot of every image. -/
def Obligations.InvariantHoldsAfterBoot : Prop :=
  ∀ (image : List Byte) (sink : Bool) (s : State), boot image sink = .ok s → MachineInv s

/-- Every step keeps the invariant, from every state that has it: the bank's canonical form, array 0, the allocator, and the
empty output staging. -/
def Obligations.StepKeepsTheInvariant : Prop :=
  ∀ s t : State, MachineInv s → step s = .next t → MachineInv t

/-- R32: identifier 0 is present at every moment of a run. -/
def Obligations.ProgramIsAlwaysPresent : Prop :=
  ∀ s : State, Reachable s → s.len? 0 ≠ none

/-- R132, clauses 1 and 3: in every reachable state the pool's members are above the next-candidate, which is the smallest
identifier not in use, or 2^32 when every identifier is in use. -/
def Obligations.NextCandidateIsTheSmallestUnused : Prop :=
  ∀ s : State, Reachable s → (∀ p ∈ s.pool, s.next < p) ∧ 1 ≤ s.next ∧ s.next ≤ 2 ^ 32 ∧
    (∀ id, id < s.next → s.len? id ≠ none) ∧ (s.next < 2 ^ 32 → s.len? s.next = none)

/-- R132 clause 2, as the spec writes it (`UnusedSetAsWritten`): this statement says that a Deallocation that completes, from a
state with the model's invariant, keeps it, as R139 claims. It is expected to FAIL, from the state in which every identifier is
in use (entry 14). -/
def Obligations.FreeKeepsTheUnusedSetAsWritten : Prop :=
  ∀ (c : Reg) (s t : State), MachineInv s → UnusedSetAsWritten s → s.run = .running → exec (.free c) s = .next t →
    t.run = .running → UnusedSetAsWritten t

/-! ### The run -/

/-- R100, R45 and R154: from a state with the invariant and with any host, whose answers may go on forever, the run has exactly
one observation: it ends with an indication and a frozen state, or it has no end. -/
def Obligations.RunHasExactlyOneObservation : Prop :=
  ∀ (host : HostInput) (s : State), MachineInv s → ∃ o, Observes host s o ∧ ∀ o', Observes host s o' → o' = o

/-- R100: a Load Program that jumps to itself makes a run without end, whose events are those it started with, whatever the host
would answer: no limit or watchdog ends it. -/
def Obligations.JumpToItselfHasNoEnd : Prop :=
  ∀ (host : HostInput) (s : State) (w : Word) (b c : Reg), Fetches s w → decode w = .loadprog b c → s.reg b = 0#32 →
    s.reg c = s.pc → Observes host s (.noEnd fun k => s.trace[k]?)

/-- R155: a run whose host never answers the pending request waits in AwaitInput and has no end. That the wait is a step that
changes nothing is the model's choice (entry 10). -/
def Obligations.UnansweredInputHasNoEnd : Prop :=
  ∀ (host : HostInput) (c : Reg) (s : State), s.run = .awaitInput c → s.hostAnswers = [] → host s.answersTaken = none →
    Observes host s (.noEnd fun k => s.trace[k]?)

/-- R153 and R154, in a run: where the core waits with no answer ready and the host answers the pending request, the run goes on
Running, with the answer in the trace and its Word in the waiting register, and the host's next answer is the following one.
That answers in `hostAnswers` are taken before the host is asked is the model's choice (entry 5). -/
def Obligations.HostAnswersThePendingRequest : Prop :=
  ∀ (host : HostInput) (c : Reg) (a : Answer) (s : State), s.run = .awaitInput c → s.hostAnswers = [] →
    host s.answersTaken = some a →
    ∃ t, (∀ fuel, runFor host (fuel + 1) s = runFor host fuel t) ∧ t.run = .running ∧
      t.trace = s.trace ++ [.answer a] ∧ t.answersTaken = s.answersTaken + 1 ∧ t.hostAnswers = [] ∧
      (∀ b, a = .byte b → (t.reg c).toNat = b.toNat) ∧ (a = .endOfStream → t.reg c = 0xFFFFFFFF#32) ∧
      RegsKeptExcept [c] s t ∧ t.pc = s.pc ∧ MemoryKept s t ∧ AllocatorKept s t ∧ StorageKept s t ∧
      t.outStaging = s.outStaging ∧ t.dedicatedSink = s.dedicatedSink

/-- R154, the spec's own example: with a host that answers `EndOfStream` forever, some run from a boot has no end and takes
answers without end. -/
def Obligations.RunCanBeAnsweredForever : Prop :=
  ∃ (s : State) (event : Nat → Option Event), Reachable s ∧ Observes (fun _ => some .endOfStream) s (.noEnd event) ∧
    ∀ n, ∃ k, n ≤ k ∧ event k = some (.answer .endOfStream)
end

