-- ==== Sys2Proof/Laws/Maps.lean ====
section
/-! SUPPORT. Finite maps as lists of pairs with rising keys: what a lookup reads after a change, and that the canonical
form is kept and determines the list. -/

namespace Sys2Proof.Machine

variable {α : Type}

/-! ### Lookup -/

@[simp] theorem lookupKey_nil (k : Nat) : lookupKey k ([] : List (Nat × α)) = none := rfl

@[simp] theorem lookupKey_cons (k k' : Nat) (v : α) (l : List (Nat × α)) :
    lookupKey k ((k', v) :: l) = if k' = k then some v else lookupKey k l := rfl

/-- A key given a value reads as that value, in any list. -/
@[simp] theorem lookupKey_putKey_same (k : Nat) (v : α) (l : List (Nat × α)) :
    lookupKey k (putKey k v l) = some v := by
  induction l with
  | nil => simp [putKey]
  | cons e l ih =>
    obtain ⟨k', v'⟩ := e
    by_cases h1 : k < k'
    · simp [putKey, h1]
    · by_cases h2 : k = k'
      · simp [putKey, h2]
      · have h3 : k' ≠ k := fun h => h2 h.symm
        simp [putKey, h1, h2, h3, ih]

/-- Giving one key a value changes what no other key reads as. -/
theorem lookupKey_putKey_other {k j : Nat} (hne : j ≠ k) (v : α) (l : List (Nat × α)) :
    lookupKey j (putKey k v l) = lookupKey j l := by
  induction l with
  | nil => simp [putKey, hne.symm]
  | cons e l ih =>
    obtain ⟨k', v'⟩ := e
    by_cases h1 : k < k'
    · simp [putKey, h1, hne.symm]
    · by_cases h2 : k = k'
      · subst h2
        simp [putKey, hne.symm]
      · simp [putKey, h1, h2, ih]

/-- A removed key has no value, in any list. -/
@[simp] theorem lookupKey_dropKey_same (k : Nat) (l : List (Nat × α)) : lookupKey k (dropKey k l) = none := by
  induction l with
  | nil => rfl
  | cons e l ih =>
    obtain ⟨k', v'⟩ := e
    by_cases h : k' = k <;> simp [dropKey, h, ih]

/-- Removing one key changes what no other key reads as. -/
theorem lookupKey_dropKey_other {k j : Nat} (hne : j ≠ k) (l : List (Nat × α)) :
    lookupKey j (dropKey k l) = lookupKey j l := by
  induction l with
  | nil => rfl
  | cons e l ih =>
    obtain ⟨k', v'⟩ := e
    by_cases h : k' = k
    · subst h
      simp [dropKey, hne.symm, ih]
    · rw [dropKey, if_neg h, lookupKey_cons, lookupKey_cons, ih]

/-- A key with a value is a key of the list, with that value. -/
theorem mem_of_lookupKey {k : Nat} {v : α} {l : List (Nat × α)} (h : lookupKey k l = some v) : (k, v) ∈ l := by
  induction l with
  | nil => simp at h
  | cons e l ih =>
    obtain ⟨k', v'⟩ := e
    by_cases hk : k' = k
    · simp only [lookupKey_cons, hk, if_true, Option.some.injEq] at h
      simp [hk, h]
    · simp only [lookupKey_cons, hk, if_false] at h
      exact List.mem_cons_of_mem _ (ih h)

/-! ### The canonical form -/

/-- The rising keys as a pairwise statement, which is what proofs use. -/
theorem keysRiseBelow_iff (limit : Nat) (l : List (Nat × α)) :
    keysRiseBelow limit l = true ↔
      l.Pairwise (fun e f => e.1 < f.1) ∧ ∀ e ∈ l, e.1 < limit := by
  induction l with
  | nil => simp [keysRiseBelow]
  | cons e l ih =>
    obtain ⟨k, v⟩ := e
    cases l with
    | nil => simp [keysRiseBelow]
    | cons f l =>
      obtain ⟨k', v'⟩ := f
      rw [keysRiseBelow, Bool.and_eq_true, ih, decide_eq_true_eq, List.pairwise_cons (a := (k, v))]
      constructor
      · rintro ⟨hk, hp, hl⟩
        refine ⟨⟨?_, hp⟩, ?_⟩
        · intro e he
          rcases List.mem_cons.1 he with rfl | he
          · exact hk
          · exact lt_trans hk ((List.pairwise_cons.1 hp).1 e he)
        · intro e he
          rcases List.mem_cons.1 he with rfl | he
          · exact lt_trans hk (hl (k', v') (List.mem_cons_self ..))
          · exact hl e he
      · rintro ⟨⟨hh, hp⟩, hl⟩
        exact ⟨hh (k', v') (List.mem_cons_self ..), hp, fun e he => hl e (List.mem_cons_of_mem _ he)⟩

theorem mem_putKey {k : Nat} {v : α} {l : List (Nat × α)} {e : Nat × α} (h : e ∈ putKey k v l) :
    e = (k, v) ∨ e ∈ l := by
  induction l with
  | nil => simpa [putKey] using h
  | cons f l ih =>
    obtain ⟨k', v'⟩ := f
    by_cases h1 : k < k'
    · simpa [putKey, h1] using h
    · by_cases h2 : k = k'
      · rw [putKey, if_neg h1, if_pos h2] at h
        rcases List.mem_cons.1 h with h | h
        · exact .inl h
        · exact .inr (List.mem_cons_of_mem _ h)
      · rw [putKey, if_neg h1, if_neg h2] at h
        rcases List.mem_cons.1 h with h | h
        · exact .inr (h ▸ List.mem_cons_self ..)
        · exact (ih h).imp id (List.mem_cons_of_mem _)

theorem mem_of_mem_dropKey {k : Nat} {l : List (Nat × α)} {e : Nat × α} (h : e ∈ dropKey k l) : e ∈ l := by
  induction l with
  | nil => exact h
  | cons f l ih =>
    obtain ⟨k', v'⟩ := f
    by_cases hk : k' = k
    · rw [dropKey, if_pos hk] at h
      exact List.mem_cons_of_mem _ (ih h)
    · rw [dropKey, if_neg hk] at h
      rcases List.mem_cons.1 h with h | h
      · exact h ▸ List.mem_cons_self ..
      · exact List.mem_cons_of_mem _ (ih h)

/-- Giving a key a value keeps the keys rising. -/
theorem pairwise_putKey {k : Nat} {v : α} {l : List (Nat × α)} (h : l.Pairwise (fun e f => e.1 < f.1)) :
    (putKey k v l).Pairwise (fun e f => e.1 < f.1) := by
  induction l with
  | nil => simp [putKey]
  | cons e l ih =>
    obtain ⟨k', v'⟩ := e
    obtain ⟨hh, ht⟩ := List.pairwise_cons.1 h
    by_cases h1 : k < k'
    · rw [putKey, if_pos h1, List.pairwise_cons]
      refine ⟨fun e he => ?_, h⟩
      rcases List.mem_cons.1 he with rfl | he
      · exact h1
      · exact lt_trans h1 (hh e he)
    · by_cases h2 : k = k'
      · subst h2
        rw [putKey, if_neg h1, if_pos rfl, List.pairwise_cons]
        exact ⟨hh, ht⟩
      · rw [putKey, if_neg h1, if_neg h2, List.pairwise_cons]
        refine ⟨fun e he => ?_, ih ht⟩
        rcases mem_putKey he with rfl | he
        · show k' < k
          omega
        · exact hh e he

/-- Removing a key keeps the keys rising. -/
theorem pairwise_dropKey {k : Nat} {l : List (Nat × α)} (h : l.Pairwise (fun e f => e.1 < f.1)) :
    (dropKey k l).Pairwise (fun e f => e.1 < f.1) := by
  induction l with
  | nil => exact h
  | cons e l ih =>
    obtain ⟨k', v'⟩ := e
    obtain ⟨hh, ht⟩ := List.pairwise_cons.1 h
    by_cases hk : k' = k
    · rw [dropKey, if_pos hk]
      exact ih ht
    · rw [dropKey, if_neg hk, List.pairwise_cons]
      exact ⟨fun e he => hh e (mem_of_mem_dropKey he), ih ht⟩

theorem keysRiseBelow_putKey {limit k : Nat} {v : α} {l : List (Nat × α)} (hk : k < limit)
    (h : keysRiseBelow limit l = true) : keysRiseBelow limit (putKey k v l) = true := by
  rw [keysRiseBelow_iff] at h ⊢
  refine ⟨pairwise_putKey h.1, fun e he => ?_⟩
  rcases mem_putKey he with rfl | he
  · exact hk
  · exact h.2 e he

theorem keysRiseBelow_dropKey {limit k : Nat} {l : List (Nat × α)} (h : keysRiseBelow limit l = true) :
    keysRiseBelow limit (dropKey k l) = true := by
  rw [keysRiseBelow_iff] at h ⊢
  exact ⟨pairwise_dropKey h.1, fun e he => h.2 e (mem_of_mem_dropKey he)⟩

/-- In a list with rising keys every listed pair is what its key reads as. -/
theorem lookupKey_of_mem {l : List (Nat × α)} (h : l.Pairwise (fun e f => e.1 < f.1)) {k : Nat} {v : α}
    (hm : (k, v) ∈ l) : lookupKey k l = some v := by
  induction l with
  | nil => simp at hm
  | cons e l ih =>
    obtain ⟨k', v'⟩ := e
    obtain ⟨hh, ht⟩ := List.pairwise_cons.1 h
    rcases List.mem_cons.1 hm with he | he
    · cases he
      simp
    · have : k' ≠ k := (hh _ he).ne
      simp [this, ih ht he]

/-- Lists with rising keys that read the same everywhere are the same list. -/
theorem eq_of_lookupKey_eq {l m : List (Nat × α)} (hl : l.Pairwise (fun e f => e.1 < f.1))
    (hm : m.Pairwise (fun e f => e.1 < f.1)) (h : ∀ k, lookupKey k l = lookupKey k m) : l = m := by
  have sub : ∀ {a b : List (Nat × α)}, a.Pairwise (fun e f => e.1 < f.1) → (∀ k, lookupKey k a = lookupKey k b) →
      ∀ e ∈ a, e ∈ b := fun ha hab e he =>
    mem_of_lookupKey ((hab e.1).symm.trans (lookupKey_of_mem ha he))
  have asymm : ∀ e f : Nat × α, e.1 < f.1 → f.1 < e.1 → e = f := fun e f h1 h2 => absurd h1 (by omega)
  have nodup : ∀ {a : List (Nat × α)}, a.Pairwise (fun e f => e.1 < f.1) → a.Nodup := fun ha =>
    ha.imp (fun hlt heq => by rw [heq] at hlt; exact lt_irrefl _ hlt)
  have perm : l.Perm m := (List.perm_ext_iff_of_nodup (nodup hl) (nodup hm)).2 fun e =>
    ⟨sub hl h e, sub hm (fun k => (h k).symm) e⟩
  exact perm.eq_of_pairwise (fun e f _ _ => asymm e f) hl hm

end Sys2Proof.Machine
end

