-- ==== Sys2Proof/Laws/State.lean ====
section
/-! SUPPORT. What each state update leaves in each field, so that no proof unfolds a record update; and what the
accessors of registers and memory read after an update. -/

namespace Sys2Proof.Machine

/-! ### setReg -/

@[simp] theorem State.setReg_regs (s : State) (r : Reg) (v : Word) : (s.setReg r v).regs = s.regs.write r v := rfl
@[simp] theorem State.setReg_pc (s : State) (r : Reg) (v : Word) : (s.setReg r v).pc = s.pc := rfl
@[simp] theorem State.setReg_bank (s : State) (r : Reg) (v : Word) : (s.setReg r v).bank = s.bank := rfl
@[simp] theorem State.setReg_pool (s : State) (r : Reg) (v : Word) : (s.setReg r v).pool = s.pool := rfl
@[simp] theorem State.setReg_next (s : State) (r : Reg) (v : Word) : (s.setReg r v).next = s.next := rfl
@[simp] theorem State.setReg_run (s : State) (r : Reg) (v : Word) : (s.setReg r v).run = s.run := rfl
@[simp] theorem State.setReg_dedicatedSink (s : State) (r : Reg) (v : Word) : (s.setReg r v).dedicatedSink = s.dedicatedSink := rfl
@[simp] theorem State.setReg_outStaging (s : State) (r : Reg) (v : Word) : (s.setReg r v).outStaging = s.outStaging := rfl
@[simp] theorem State.setReg_trace (s : State) (r : Reg) (v : Word) : (s.setReg r v).trace = s.trace := rfl
@[simp] theorem State.setReg_hostAnswers (s : State) (r : Reg) (v : Word) : (s.setReg r v).hostAnswers = s.hostAnswers := rfl
@[simp] theorem State.setReg_storageGrants (s : State) (r : Reg) (v : Word) : (s.setReg r v).storageGrants = s.storageGrants := rfl

/-! ### setPc -/

@[simp] theorem State.setPc_regs (s : State) (w : Word) : (s.setPc w).regs = s.regs := rfl
@[simp] theorem State.setPc_pc (s : State) (w : Word) : (s.setPc w).pc = w := rfl
@[simp] theorem State.setPc_bank (s : State) (w : Word) : (s.setPc w).bank = s.bank := rfl
@[simp] theorem State.setPc_pool (s : State) (w : Word) : (s.setPc w).pool = s.pool := rfl
@[simp] theorem State.setPc_next (s : State) (w : Word) : (s.setPc w).next = s.next := rfl
@[simp] theorem State.setPc_run (s : State) (w : Word) : (s.setPc w).run = s.run := rfl
@[simp] theorem State.setPc_dedicatedSink (s : State) (w : Word) : (s.setPc w).dedicatedSink = s.dedicatedSink := rfl
@[simp] theorem State.setPc_outStaging (s : State) (w : Word) : (s.setPc w).outStaging = s.outStaging := rfl
@[simp] theorem State.setPc_trace (s : State) (w : Word) : (s.setPc w).trace = s.trace := rfl
@[simp] theorem State.setPc_hostAnswers (s : State) (w : Word) : (s.setPc w).hostAnswers = s.hostAnswers := rfl
@[simp] theorem State.setPc_storageGrants (s : State) (w : Word) : (s.setPc w).storageGrants = s.storageGrants := rfl

/-! ### setRun -/

@[simp] theorem State.setRun_regs (s : State) (r : RunState) : (s.setRun r).regs = s.regs := rfl
@[simp] theorem State.setRun_pc (s : State) (r : RunState) : (s.setRun r).pc = s.pc := rfl
@[simp] theorem State.setRun_bank (s : State) (r : RunState) : (s.setRun r).bank = s.bank := rfl
@[simp] theorem State.setRun_pool (s : State) (r : RunState) : (s.setRun r).pool = s.pool := rfl
@[simp] theorem State.setRun_next (s : State) (r : RunState) : (s.setRun r).next = s.next := rfl
@[simp] theorem State.setRun_run (s : State) (r : RunState) : (s.setRun r).run = r := rfl
@[simp] theorem State.setRun_dedicatedSink (s : State) (r : RunState) : (s.setRun r).dedicatedSink = s.dedicatedSink := rfl
@[simp] theorem State.setRun_outStaging (s : State) (r : RunState) : (s.setRun r).outStaging = s.outStaging := rfl
@[simp] theorem State.setRun_trace (s : State) (r : RunState) : (s.setRun r).trace = s.trace := rfl
@[simp] theorem State.setRun_hostAnswers (s : State) (r : RunState) : (s.setRun r).hostAnswers = s.hostAnswers := rfl
@[simp] theorem State.setRun_storageGrants (s : State) (r : RunState) : (s.setRun r).storageGrants = s.storageGrants := rfl

/-! ### setBank -/

@[simp] theorem State.setBank_regs (s : State) (m : Memory) : (s.setBank m).regs = s.regs := rfl
@[simp] theorem State.setBank_pc (s : State) (m : Memory) : (s.setBank m).pc = s.pc := rfl
@[simp] theorem State.setBank_bank (s : State) (m : Memory) : (s.setBank m).bank = m := rfl
@[simp] theorem State.setBank_pool (s : State) (m : Memory) : (s.setBank m).pool = s.pool := rfl
@[simp] theorem State.setBank_next (s : State) (m : Memory) : (s.setBank m).next = s.next := rfl
@[simp] theorem State.setBank_run (s : State) (m : Memory) : (s.setBank m).run = s.run := rfl
@[simp] theorem State.setBank_dedicatedSink (s : State) (m : Memory) : (s.setBank m).dedicatedSink = s.dedicatedSink := rfl
@[simp] theorem State.setBank_outStaging (s : State) (m : Memory) : (s.setBank m).outStaging = s.outStaging := rfl
@[simp] theorem State.setBank_trace (s : State) (m : Memory) : (s.setBank m).trace = s.trace := rfl
@[simp] theorem State.setBank_hostAnswers (s : State) (m : Memory) : (s.setBank m).hostAnswers = s.hostAnswers := rfl
@[simp] theorem State.setBank_storageGrants (s : State) (m : Memory) : (s.setBank m).storageGrants = s.storageGrants := rfl

/-! ### setAllocator -/

@[simp] theorem State.setAllocator_regs (s : State) (p : List Nat) (n : Nat) : (s.setAllocator p n).regs = s.regs := rfl
@[simp] theorem State.setAllocator_pc (s : State) (p : List Nat) (n : Nat) : (s.setAllocator p n).pc = s.pc := rfl
@[simp] theorem State.setAllocator_bank (s : State) (p : List Nat) (n : Nat) : (s.setAllocator p n).bank = s.bank := rfl
@[simp] theorem State.setAllocator_pool (s : State) (p : List Nat) (n : Nat) : (s.setAllocator p n).pool = p := rfl
@[simp] theorem State.setAllocator_next (s : State) (p : List Nat) (n : Nat) : (s.setAllocator p n).next = n := rfl
@[simp] theorem State.setAllocator_run (s : State) (p : List Nat) (n : Nat) : (s.setAllocator p n).run = s.run := rfl
@[simp] theorem State.setAllocator_dedicatedSink (s : State) (p : List Nat) (n : Nat) : (s.setAllocator p n).dedicatedSink = s.dedicatedSink := rfl
@[simp] theorem State.setAllocator_outStaging (s : State) (p : List Nat) (n : Nat) : (s.setAllocator p n).outStaging = s.outStaging := rfl
@[simp] theorem State.setAllocator_trace (s : State) (p : List Nat) (n : Nat) : (s.setAllocator p n).trace = s.trace := rfl
@[simp] theorem State.setAllocator_hostAnswers (s : State) (p : List Nat) (n : Nat) : (s.setAllocator p n).hostAnswers = s.hostAnswers := rfl
@[simp] theorem State.setAllocator_storageGrants (s : State) (p : List Nat) (n : Nat) : (s.setAllocator p n).storageGrants = s.storageGrants := rfl

/-! ### send -/

@[simp] theorem State.send_regs (s : State) (e : Event) : (s.send e).regs = s.regs := rfl
@[simp] theorem State.send_pc (s : State) (e : Event) : (s.send e).pc = s.pc := rfl
@[simp] theorem State.send_bank (s : State) (e : Event) : (s.send e).bank = s.bank := rfl
@[simp] theorem State.send_pool (s : State) (e : Event) : (s.send e).pool = s.pool := rfl
@[simp] theorem State.send_next (s : State) (e : Event) : (s.send e).next = s.next := rfl
@[simp] theorem State.send_run (s : State) (e : Event) : (s.send e).run = s.run := rfl
@[simp] theorem State.send_dedicatedSink (s : State) (e : Event) : (s.send e).dedicatedSink = s.dedicatedSink := rfl
@[simp] theorem State.send_outStaging (s : State) (e : Event) : (s.send e).outStaging = s.outStaging := rfl
@[simp] theorem State.send_trace (s : State) (e : Event) : (s.send e).trace = s.trace ++ [e] := rfl
@[simp] theorem State.send_hostAnswers (s : State) (e : Event) : (s.send e).hostAnswers = s.hostAnswers := rfl
@[simp] theorem State.send_storageGrants (s : State) (e : Event) : (s.send e).storageGrants = s.storageGrants := rfl

/-! ### stage -/

@[simp] theorem State.stage_regs (s : State) (b : Byte) : (s.stage b).regs = s.regs := rfl
@[simp] theorem State.stage_pc (s : State) (b : Byte) : (s.stage b).pc = s.pc := rfl
@[simp] theorem State.stage_bank (s : State) (b : Byte) : (s.stage b).bank = s.bank := rfl
@[simp] theorem State.stage_pool (s : State) (b : Byte) : (s.stage b).pool = s.pool := rfl
@[simp] theorem State.stage_next (s : State) (b : Byte) : (s.stage b).next = s.next := rfl
@[simp] theorem State.stage_run (s : State) (b : Byte) : (s.stage b).run = s.run := rfl
@[simp] theorem State.stage_dedicatedSink (s : State) (b : Byte) : (s.stage b).dedicatedSink = s.dedicatedSink := rfl
@[simp] theorem State.stage_outStaging (s : State) (b : Byte) : (s.stage b).outStaging = some b := rfl
@[simp] theorem State.stage_trace (s : State) (b : Byte) : (s.stage b).trace = s.trace := rfl
@[simp] theorem State.stage_hostAnswers (s : State) (b : Byte) : (s.stage b).hostAnswers = s.hostAnswers := rfl
@[simp] theorem State.stage_storageGrants (s : State) (b : Byte) : (s.stage b).storageGrants = s.storageGrants := rfl

/-! ### advancePc -/

@[simp] theorem State.advancePc_regs (s : State) : s.advancePc.regs = s.regs := rfl
@[simp] theorem State.advancePc_pc (s : State) : s.advancePc.pc = s.pc + 1#32 := rfl
@[simp] theorem State.advancePc_bank (s : State) : s.advancePc.bank = s.bank := rfl
@[simp] theorem State.advancePc_pool (s : State) : s.advancePc.pool = s.pool := rfl
@[simp] theorem State.advancePc_next (s : State) : s.advancePc.next = s.next := rfl
@[simp] theorem State.advancePc_run (s : State) : s.advancePc.run = s.run := rfl
@[simp] theorem State.advancePc_dedicatedSink (s : State) : s.advancePc.dedicatedSink = s.dedicatedSink := rfl
@[simp] theorem State.advancePc_outStaging (s : State) : s.advancePc.outStaging = s.outStaging := rfl
@[simp] theorem State.advancePc_trace (s : State) : s.advancePc.trace = s.trace := rfl
@[simp] theorem State.advancePc_hostAnswers (s : State) : s.advancePc.hostAnswers = s.hostAnswers := rfl
@[simp] theorem State.advancePc_storageGrants (s : State) : s.advancePc.storageGrants = s.storageGrants := rfl

/-! ### raiseFatal -/

@[simp] theorem raiseFatal_regs (e : FatalReason) (s : State) : (raiseFatal e s).regs = s.regs := rfl
@[simp] theorem raiseFatal_pc (e : FatalReason) (s : State) : (raiseFatal e s).pc = s.pc := rfl
@[simp] theorem raiseFatal_bank (e : FatalReason) (s : State) : (raiseFatal e s).bank = s.bank := rfl
@[simp] theorem raiseFatal_pool (e : FatalReason) (s : State) : (raiseFatal e s).pool = s.pool := rfl
@[simp] theorem raiseFatal_next (e : FatalReason) (s : State) : (raiseFatal e s).next = s.next := rfl
@[simp] theorem raiseFatal_run (e : FatalReason) (s : State) : (raiseFatal e s).run = .aborted e := rfl
@[simp] theorem raiseFatal_dedicatedSink (e : FatalReason) (s : State) : (raiseFatal e s).dedicatedSink = s.dedicatedSink := rfl
@[simp] theorem raiseFatal_outStaging (e : FatalReason) (s : State) : (raiseFatal e s).outStaging = s.outStaging := rfl
@[simp] theorem raiseFatal_trace (e : FatalReason) (s : State) : (raiseFatal e s).trace = s.trace := rfl
@[simp] theorem raiseFatal_hostAnswers (e : FatalReason) (s : State) : (raiseFatal e s).hostAnswers = s.hostAnswers := rfl
@[simp] theorem raiseFatal_storageGrants (e : FatalReason) (s : State) : (raiseFatal e s).storageGrants = s.storageGrants := rfl

/-! ### Reading a register -/

/-- A register write is seen by a read of that register and of no other (10_state.md R21: no register is an alias). -/
@[simp] theorem State.reg_setReg (s : State) (r r' : Reg) (v : Word) :
    (s.setReg r v).reg r' = if r' = r then v else s.reg r' := by
  cases r <;> cases r' <;> rfl

@[simp] theorem State.reg_setPc (s : State) (w : Word) (r' : Reg) : (s.setPc w).reg r' = s.reg r' := rfl
@[simp] theorem State.reg_setRun (s : State) (r : RunState) (r' : Reg) : (s.setRun r).reg r' = s.reg r' := rfl
@[simp] theorem State.reg_setBank (s : State) (m : Memory) (r' : Reg) : (s.setBank m).reg r' = s.reg r' := rfl
@[simp] theorem State.reg_setAllocator (s : State) (p : List Nat) (n : Nat) (r' : Reg) : (s.setAllocator p n).reg r' = s.reg r' := rfl
@[simp] theorem State.reg_send (s : State) (e : Event) (r' : Reg) : (s.send e).reg r' = s.reg r' := rfl
@[simp] theorem State.reg_stage (s : State) (b : Byte) (r' : Reg) : (s.stage b).reg r' = s.reg r' := rfl
@[simp] theorem State.reg_advancePc (s : State) (r' : Reg) : s.advancePc.reg r' = s.reg r' := rfl
@[simp] theorem State.reg_raiseFatal (e : FatalReason) (s : State) (r' : Reg) : (raiseFatal e s).reg r' = s.reg r' := rfl

/-- Two states with the same register file read the same in every register. -/
theorem State.reg_congr {s t : State} (h : t.regs = s.regs) (r : Reg) : t.reg r = s.reg r := by
  cases r <;> simp only [State.reg, h]

/-! ### Reading memory -/

@[simp] theorem State.word_setReg (s : State) (r : Reg) (v : Word) (id off : Nat) : (s.setReg r v).word? id off = s.word? id off := rfl
@[simp] theorem State.word_setPc (s : State) (w : Word) (id off : Nat) : (s.setPc w).word? id off = s.word? id off := rfl
@[simp] theorem State.word_setRun (s : State) (r : RunState) (id off : Nat) : (s.setRun r).word? id off = s.word? id off := rfl
@[simp] theorem State.word_setAllocator (s : State) (p : List Nat) (n : Nat) (id off : Nat) : (s.setAllocator p n).word? id off = s.word? id off := rfl
@[simp] theorem State.word_send (s : State) (e : Event) (id off : Nat) : (s.send e).word? id off = s.word? id off := rfl
@[simp] theorem State.word_stage (s : State) (b : Byte) (id off : Nat) : (s.stage b).word? id off = s.word? id off := rfl
@[simp] theorem State.word_advancePc (s : State) (id off : Nat) : s.advancePc.word? id off = s.word? id off := rfl

@[simp] theorem State.len_setReg (s : State) (r : Reg) (v : Word) (id : Nat) : (s.setReg r v).len? id = s.len? id := rfl
@[simp] theorem State.len_setPc (s : State) (w : Word) (id : Nat) : (s.setPc w).len? id = s.len? id := rfl
@[simp] theorem State.len_setRun (s : State) (r : RunState) (id : Nat) : (s.setRun r).len? id = s.len? id := rfl
@[simp] theorem State.len_setAllocator (s : State) (p : List Nat) (n : Nat) (id : Nat) : (s.setAllocator p n).len? id = s.len? id := rfl
@[simp] theorem State.len_send (s : State) (e : Event) (id : Nat) : (s.send e).len? id = s.len? id := rfl
@[simp] theorem State.len_stage (s : State) (b : Byte) (id : Nat) : (s.stage b).len? id = s.len? id := rfl
@[simp] theorem State.len_advancePc (s : State) (id : Nat) : s.advancePc.len? id = s.len? id := rfl

/-- Memory is read through the bank alone. -/
theorem State.word_congr {s t : State} (h : t.bank = s.bank) (id off : Nat) : t.word? id off = s.word? id off := by
  simp only [State.word?, h]

/-- Lengths are read through the bank alone. -/
theorem State.len_congr {s t : State} (h : t.bank = s.bank) (id : Nat) : t.len? id = s.len? id := by
  simp only [State.len?, h]

end Sys2Proof.Machine
end

