-- ==== Sys2Proof/Laws/Memory.lean ====
section
/-! SUPPORT. The Memory Bank: what a read sees after a write (20_memory.md R52, R53), and that every operation keeps the
canonical form, which determines the bank. -/

namespace Sys2Proof.Machine

/-! ### Arrays -/

@[simp] theorem BankArray.len_setWord (a : BankArray) (off : Nat) (v : Word) : (a.setWord off v).len = a.len := rfl

@[simp] theorem BankArray.len_zeros (n : Nat) : (BankArray.zeros n).len = n := rfl

@[simp] theorem BankArray.len_ofWords (ws : List Word) : (BankArray.ofWords ws).len = ws.length := rfl

/-- A new array holds 0 at every offset (20_memory.md R60). -/
@[simp] theorem BankArray.word_zeros (n off : Nat) : (BankArray.zeros n).word off = 0#32 := rfl

/-- A Word written is the Word read (20_memory.md R63). -/
@[simp] theorem BankArray.word_setWord_same (a : BankArray) (off : Nat) (v : Word) :
    (a.setWord off v).word off = v := by
  by_cases h : v = 0#32 <;> simp [BankArray.word, BankArray.setWord, h]

/-- A write changes the Word at no other offset (20_memory.md R53). -/
theorem BankArray.word_setWord_other {off j : Nat} (hne : j ≠ off) (a : BankArray) (v : Word) :
    (a.setWord off v).word j = a.word j := by
  by_cases h : v = 0#32
  · simp [BankArray.word, BankArray.setWord, h, lookupKey_dropKey_other hne]
  · simp [BankArray.word, BankArray.setWord, h, lookupKey_putKey_other hne]

/-- The canonical form of an array, as propositions. -/
theorem BankArray.wf_iff (a : BankArray) :
    a.wf = true ↔ a.len < Config.wordLimit ∧ keysRiseBelow a.len a.cells = true ∧ ∀ c ∈ a.cells, c.2 ≠ 0#32 := by
  simp [BankArray.wf, and_assoc]

theorem BankArray.wf_zeros {n : Nat} (h : n < Config.wordLimit) : (BankArray.zeros n).wf = true := by
  simp [BankArray.wf_iff, BankArray.zeros, keysRiseBelow, h]

/-- A write inside an array keeps its canonical form. -/
theorem BankArray.wf_setWord {a : BankArray} {off : Nat} {v : Word} (h : a.wf = true) (hoff : off < a.len) :
    (a.setWord off v).wf = true := by
  rw [BankArray.wf_iff] at h ⊢
  obtain ⟨hlen, hkeys, hcells⟩ := h
  by_cases hv : v = 0#32
  · simp only [BankArray.setWord, hv, if_true]
    exact ⟨hlen, keysRiseBelow_dropKey hkeys, fun c hc => hcells c (mem_of_mem_dropKey hc)⟩
  · simp only [BankArray.setWord, hv, if_false]
    refine ⟨hlen, keysRiseBelow_putKey hoff hkeys, fun c hc => ?_⟩
    rcases mem_putKey hc with rfl | hc
    · exact hv
    · exact hcells c hc

/-- Two arrays in canonical form with the same length and the same Words are the same data. -/
theorem BankArray.eq_of_words {a b : BankArray} (ha : a.wf = true) (hb : b.wf = true) (hlen : a.len = b.len)
    (h : ∀ off, a.word off = b.word off) : a = b := by
  obtain ⟨la, ca⟩ := a
  obtain ⟨lb, cb⟩ := b
  obtain ⟨-, hka, hza⟩ := (BankArray.wf_iff _).1 ha
  obtain ⟨-, hkb, hzb⟩ := (BankArray.wf_iff _).1 hb
  have hpa := ((keysRiseBelow_iff _ _).1 hka).1
  have hpb := ((keysRiseBelow_iff _ _).1 hkb).1
  have key : ∀ off, lookupKey off ca = lookupKey off cb := fun off => by
    have hw := h off
    simp only [BankArray.word] at hw
    cases hca : lookupKey off ca with
    | none =>
      cases hcb : lookupKey off cb with
      | none => rfl
      | some w =>
        rw [hca, hcb] at hw
        exact absurd hw.symm (hzb _ (mem_of_lookupKey hcb))
    | some v =>
      cases hcb : lookupKey off cb with
      | none =>
        rw [hca, hcb] at hw
        exact absurd hw (hza _ (mem_of_lookupKey hca))
      | some w =>
        rw [hca, hcb] at hw
        exact congrArg some hw
  have hc : ca = cb := eq_of_lookupKey_eq hpa hpb key
  exact congr (congrArg BankArray.mk hlen) hc

/-- The keys of a list of Words rise from the first offset on. -/
theorem keysRiseBelow_cellsFrom (ws : List Word) (k : Nat) :
    (cellsFrom k ws).Pairwise (fun e f => e.1 < f.1) ∧ ∀ e ∈ cellsFrom k ws, k ≤ e.1 ∧ e.1 < k + ws.length ∧ e.2 ≠ 0#32 := by
  induction ws generalizing k with
  | nil => simp [cellsFrom]
  | cons w ws ih =>
    obtain ⟨hp, hb⟩ := ih (k + 1)
    have hb' : ∀ e ∈ cellsFrom (k + 1) ws, k ≤ e.1 ∧ e.1 < k + (w :: ws).length ∧ e.2 ≠ 0#32 := fun e he => by
      obtain ⟨hlo, hhi, hnz⟩ := hb e he
      simp only [List.length_cons]
      exact ⟨by omega, by omega, hnz⟩
    by_cases hw : w = 0#32
    · simp only [cellsFrom, hw, if_true]
      exact ⟨hp, by simpa [hw] using hb'⟩
    · simp only [cellsFrom, hw, if_false, List.pairwise_cons, List.mem_cons]
      refine ⟨⟨fun e he => ?_, hp⟩, ?_⟩
      · have := hb e he
        show k < e.1
        omega
      · rintro e (rfl | he)
        · exact ⟨le_refl _, by simp, hw⟩
        · exact hb' e he

/-- The array of a list of Words is in canonical form. -/
theorem BankArray.wf_ofWords {ws : List Word} (h : ws.length < Config.wordLimit) :
    (BankArray.ofWords ws).wf = true := by
  obtain ⟨hp, hb⟩ := keysRiseBelow_cellsFrom ws 0
  rw [BankArray.wf_iff]
  refine ⟨h, (keysRiseBelow_iff _ _).2 ⟨hp, fun e he => ?_⟩, fun e he => (hb e he).2.2⟩
  have := hb e he
  simp only [BankArray.len_ofWords]
  omega

theorem lookupKey_cellsFrom (ws : List Word) (k j : Nat) :
    (lookupKey (k + j) (cellsFrom k ws)).getD 0#32 = ws.getD j 0#32 := by
  induction ws generalizing k j with
  | nil => simp [cellsFrom]
  | cons w ws ih =>
    cases j with
    | zero =>
      by_cases hw : w = 0#32
      · have none_below : lookupKey k (cellsFrom (k + 1) ws) = none := by
          cases hl : lookupKey k (cellsFrom (k + 1) ws) with
          | none => rfl
          | some v =>
            have := ((keysRiseBelow_cellsFrom ws (k + 1)).2 _ (mem_of_lookupKey hl)).1
            exact absurd this (by simp)
        simp [cellsFrom, hw, none_below]
      · simp [cellsFrom, hw]
    | succ j =>
      have hj := ih (k + 1) j
      rw [show k + 1 + j = k + (j + 1) by omega] at hj
      by_cases hw : w = 0#32
      · simpa [cellsFrom, hw] using hj
      · simpa [cellsFrom, hw] using hj

/-- The array of a list of Words holds those Words (70_reset_and_hazards.md R221). -/
theorem BankArray.word_ofWords (ws : List Word) (off : Nat) : (BankArray.ofWords ws).word off = ws.getD off 0#32 := by
  have h := lookupKey_cellsFrom ws 0 off
  rwa [Nat.zero_add] at h

/-! ### The bank -/

@[simp] theorem Memory.find_put_same (m : Memory) (id : Nat) (a : BankArray) :
    Memory.find (Memory.put m id a) id = some a := lookupKey_putKey_same id a m

theorem Memory.find_put_other {id j : Nat} (hne : j ≠ id) (m : Memory) (a : BankArray) :
    Memory.find (Memory.put m id a) j = Memory.find m j := lookupKey_putKey_other hne a m

/-- What a bank reads as after an array is put under an identifier. -/
theorem Memory.find_put (m : Memory) (id j : Nat) (a : BankArray) :
    Memory.find (Memory.put m id a) j = if j = id then some a else Memory.find m j := by
  by_cases h : j = id
  · subst h
    simp
  · simp [h, Memory.find_put_other h]

/-- What a bank reads as after an array is deleted (42_bank_management.md R138). -/
theorem Memory.find_delete (m : Memory) (id j : Nat) :
    Memory.find (Memory.delete m id) j = if j = id then none else Memory.find m j := by
  by_cases h : j = id
  · subst h
    simp [Memory.find, Memory.delete]
  · simp [h, Memory.find, Memory.delete, lookupKey_dropKey_other h]

theorem Memory.present_iff (m : Memory) (id : Nat) :
    Memory.present m id = true ↔ ∃ a, Memory.find m id = some a := by
  simp [Memory.present, Option.isSome_iff_exists]

theorem Memory.present_eq_false_iff (m : Memory) (id : Nat) :
    Memory.present m id = false ↔ Memory.find m id = none := by
  simp [Memory.present]

theorem Memory.present_put (m : Memory) (id j : Nat) (a : BankArray) :
    Memory.present (Memory.put m id a) j = (decide (j = id) || Memory.present m j) := by
  by_cases h : j = id <;> simp [Memory.present, Memory.find_put, h]

theorem Memory.present_delete (m : Memory) (id j : Nat) :
    Memory.present (Memory.delete m id) j = (!decide (j = id) && Memory.present m j) := by
  by_cases h : j = id <;> simp [Memory.present, Memory.find_delete, h]

/-- The canonical form of a bank, as propositions. -/
theorem Memory.wf_iff (m : Memory) :
    Memory.wf m = true ↔ keysRiseBelow Config.wordLimit m = true ∧ ∀ e ∈ m, e.2.wf = true := by
  simp [Memory.wf]

/-- A present array of a bank in canonical form is in canonical form, and its identifier is a Word. -/
theorem Memory.wf_find {m : Memory} {id : Nat} {a : BankArray} (h : Memory.wf m = true)
    (hf : Memory.find m id = some a) : a.wf = true ∧ id < Config.wordLimit := by
  obtain ⟨hk, ha⟩ := (Memory.wf_iff m).1 h
  have hm := mem_of_lookupKey hf
  exact ⟨ha _ hm, ((keysRiseBelow_iff _ _).1 hk).2 _ hm⟩

/-- Putting an array keeps the canonical form. -/
theorem Memory.wf_put {m : Memory} {id : Nat} {a : BankArray} (h : Memory.wf m = true) (hid : id < Config.wordLimit)
    (ha : a.wf = true) : Memory.wf (Memory.put m id a) = true := by
  rw [Memory.wf_iff] at h ⊢
  refine ⟨keysRiseBelow_putKey hid h.1, fun e he => ?_⟩
  rcases mem_putKey he with rfl | he
  · exact ha
  · exact h.2 e he

/-- Deleting an array keeps the canonical form. -/
theorem Memory.wf_delete {m : Memory} {id : Nat} (h : Memory.wf m = true) : Memory.wf (Memory.delete m id) = true := by
  rw [Memory.wf_iff] at h ⊢
  exact ⟨keysRiseBelow_dropKey h.1, fun e he => h.2 e (mem_of_mem_dropKey he)⟩

/-- All that a read can do (20_memory.md R52). -/
theorem Memory.read_cases (m : Memory) (nf ob : FatalReason) (id off : Nat) :
    (Memory.find m id = none ∧ Memory.read m nf ob id off = .error nf) ∨
    (∃ a, Memory.find m id = some a ∧ a.len ≤ off ∧ Memory.read m nf ob id off = .error ob) ∨
    (∃ a, Memory.find m id = some a ∧ off < a.len ∧ Memory.read m nf ob id off = .ok (a.word off)) := by
  cases hf : Memory.find m id with
  | none => exact .inl ⟨rfl, by simp [Memory.read, hf]⟩
  | some a =>
    by_cases ho : a.len ≤ off
    · exact .inr (.inl ⟨a, rfl, ho, by simp [Memory.read, hf, ho]⟩)
    · exact .inr (.inr ⟨a, rfl, by omega, by simp [Memory.read, hf, ho]⟩)

/-- All that a write can do (20_memory.md R53). -/
theorem Memory.write_cases (m : Memory) (nf ob : FatalReason) (id off : Nat) (v : Word) :
    (Memory.find m id = none ∧ Memory.write m nf ob id off v = .error nf) ∨
    (∃ a, Memory.find m id = some a ∧ a.len ≤ off ∧ Memory.write m nf ob id off v = .error ob) ∨
    (∃ a, Memory.find m id = some a ∧ off < a.len ∧
      Memory.write m nf ob id off v = .ok (Memory.put m id (a.setWord off v))) := by
  cases hf : Memory.find m id with
  | none => exact .inl ⟨rfl, by simp [Memory.write, hf]⟩
  | some a =>
    by_cases ho : a.len ≤ off
    · exact .inr (.inl ⟨a, rfl, ho, by simp [Memory.write, hf, ho]⟩)
    · exact .inr (.inr ⟨a, rfl, by omega, by simp [Memory.write, hf, ho]⟩)

/-- A write that completes keeps the canonical form. -/
theorem Memory.wf_write {m m' : Memory} {nf ob : FatalReason} {id off : Nat} {v : Word} (h : Memory.wf m = true)
    (hw : Memory.write m nf ob id off v = .ok m') : Memory.wf m' = true := by
  rcases Memory.write_cases m nf ob id off v with ⟨-, he⟩ | ⟨a, -, -, he⟩ | ⟨a, hf, ho, he⟩
  · rw [he] at hw
    cases hw
  · rw [he] at hw
    cases hw
  · rw [he] at hw
    cases hw
    obtain ⟨ha, hid⟩ := Memory.wf_find h hf
    exact Memory.wf_put h hid (BankArray.wf_setWord ha ho)

/-! ### What a state reads -/

/-- An address holds a Word exactly when its array is present and the offset inside it. -/
theorem State.word?_eq_some_iff (s : State) (id off : Nat) (v : Word) :
    s.word? id off = some v ↔ ∃ a, Memory.find s.bank id = some a ∧ off < a.len ∧ a.word off = v := by
  cases hf : Memory.find s.bank id with
  | none => simp [State.word?, hf]
  | some a =>
    by_cases ho : a.len ≤ off
    · simp only [State.word?, hf, ho, if_true]
      constructor
      · simp
      · rintro ⟨b, hb, hlt, -⟩
        cases hb
        omega
    · simp only [State.word?, hf, ho, if_false, Option.some.injEq]
      constructor
      · exact fun h => ⟨a, rfl, by omega, h⟩
      · rintro ⟨b, hb, -, hv⟩
        cases hb
        exact hv

theorem State.len?_eq_some_iff (s : State) (id n : Nat) :
    s.len? id = some n ↔ ∃ a, Memory.find s.bank id = some a ∧ a.len = n := by
  simp [State.len?]

theorem State.len?_eq_none_iff (s : State) (id : Nat) : s.len? id = none ↔ Memory.find s.bank id = none := by
  simp [State.len?]

/-- What a state reads after its bank has one array put under an identifier. -/
theorem State.word?_put (s : State) (id j off : Nat) (a : BankArray) :
    (s.setBank (Memory.put s.bank id a)).word? j off =
      if j = id then (if a.len ≤ off then none else some (a.word off)) else s.word? j off := by
  by_cases h : j = id <;> simp [State.word?, Memory.find_put, h]

theorem State.len?_put (s : State) (id j : Nat) (a : BankArray) :
    (s.setBank (Memory.put s.bank id a)).len? j = if j = id then some a.len else s.len? j := by
  by_cases h : j = id <;> simp [State.len?, Memory.find_put, h]

/-- What a state reads after an array is deleted. -/
theorem State.word?_delete (s : State) (id j off : Nat) :
    (s.setBank (Memory.delete s.bank id)).word? j off = if j = id then none else s.word? j off := by
  by_cases h : j = id <;> simp [State.word?, Memory.find_delete, h]

theorem State.len?_delete (s : State) (id j : Nat) :
    (s.setBank (Memory.delete s.bank id)).len? j = if j = id then none else s.len? j := by
  by_cases h : j = id <;> simp [State.len?, Memory.find_delete, h]

/-- Banks in canonical form that read the same everywhere are the same data: equal memories are equal. -/
theorem Memory.eq_of_reads {s t : State} (hs : Memory.wf s.bank = true) (ht : Memory.wf t.bank = true)
    (hlen : ∀ id, s.len? id = t.len? id) (hword : ∀ id off, s.word? id off = t.word? id off) : s.bank = t.bank := by
  obtain ⟨hks, has⟩ := (Memory.wf_iff _).1 hs
  obtain ⟨hkt, hat⟩ := (Memory.wf_iff _).1 ht
  refine eq_of_lookupKey_eq ((keysRiseBelow_iff _ _).1 hks).1 ((keysRiseBelow_iff _ _).1 hkt).1 fun id => ?_
  have hl := hlen id
  change Memory.find s.bank id = Memory.find t.bank id
  cases hfs : Memory.find s.bank id with
  | none =>
    rw [(State.len?_eq_none_iff s id).2 hfs] at hl
    exact ((State.len?_eq_none_iff t id).1 hl.symm).symm
  | some a =>
    rw [(State.len?_eq_some_iff s id a.len).2 ⟨a, hfs, rfl⟩] at hl
    obtain ⟨b, hft, hab⟩ := (State.len?_eq_some_iff t id a.len).1 hl.symm
    rw [hft]
    have hwa := (Memory.wf_find hs hfs).1
    have hwb := (Memory.wf_find ht hft).1
    refine congrArg some (BankArray.eq_of_words hwa hwb hab.symm fun off => ?_)
    have hw := hword id off
    by_cases ho : a.len ≤ off
    · have outside : ∀ c : BankArray, c.wf = true → c.len ≤ off → c.word off = 0#32 := fun c hc hco => by
        obtain ⟨-, hkc, -⟩ := (BankArray.wf_iff c).1 hc
        cases hl : lookupKey off c.cells with
        | none => simp [BankArray.word, hl]
        | some v =>
          have : off < c.len := ((keysRiseBelow_iff _ _).1 hkc).2 _ (mem_of_lookupKey hl)
          omega
      rw [outside a hwa ho, outside b hwb (hab ▸ ho)]
    · have hob : ¬ b.len ≤ off := by omega
      simpa [State.word?, hfs, hft, ho, hob] using hw

end Sys2Proof.Machine
end

