-- ==== Sys2Proof/Laws/Allocator.lean ====
section
/-! SUPPORT. The allocator (42_bank_management.md): what the skip loop finds, what the pool's set operations hold, and
that allocation and deallocation keep the allocator's invariant. -/

namespace Sys2Proof.Machine

/-! ### The skip loop -/

/-- Distinct present identifiers are no more than the bank has arrays. -/
theorem card_present_le (m : Memory) (S : Finset Nat) (h : ∀ id ∈ S, Memory.present m id = true) :
    S.card ≤ m.length := by
  have sub : S ⊆ (m.map Prod.fst).toFinset := fun id hid => by
    obtain ⟨a, ha⟩ := (Memory.present_iff m id).1 (h id hid)
    simpa using ⟨a, mem_of_lookupKey ha⟩
  calc S.card ≤ (m.map Prod.fst).toFinset.card := Finset.card_le_card sub
    _ ≤ (m.map Prod.fst).length := List.toFinset_card_le _
    _ = m.length := List.length_map ..

/-- With any fuel the loop passes occupied candidates only, and stops early only at one that is not. -/
theorem skipOccupied_fuel (m : Memory) (fuel n : Nat) :
    n ≤ skipOccupied m fuel n ∧ skipOccupied m fuel n ≤ n + fuel ∧
    (∀ id, n ≤ id → id < skipOccupied m fuel n → id < Config.wordLimit ∧ Memory.present m id = true) ∧
    (skipOccupied m fuel n < n + fuel →
      Config.wordLimit ≤ skipOccupied m fuel n ∨ Memory.present m (skipOccupied m fuel n) = false) := by
  induction fuel generalizing n with
  | zero => exact ⟨le_refl _, le_refl _, fun id h1 h2 => absurd h2 (by simpa [skipOccupied] using h1),
      fun h => absurd h (by simp [skipOccupied])⟩
  | succ k ih =>
    by_cases hc : n < Config.wordLimit ∧ Memory.present m n = true
    · have hs : skipOccupied m (k + 1) n = skipOccupied m k (n + 1) := by simp [skipOccupied, hc]
      obtain ⟨h1, h2, h3, h4⟩ := ih (n + 1)
      rw [hs]
      refine ⟨by omega, by omega, fun id hid hlt => ?_, fun h => h4 (by omega)⟩
      rcases Nat.eq_or_lt_of_le hid with rfl | hid
      · exact hc
      · exact h3 id hid hlt
    · have hs : skipOccupied m (k + 1) n = n := by
        rw [skipOccupied, if_neg (by simpa using hc)]
      rw [hs]
      refine ⟨le_refl _, by omega, fun id h1 h2 => absurd h2 (by omega), fun _ => ?_⟩
      by_cases hn : n < Config.wordLimit
      · exact .inr (by simpa [hn] using hc)
      · exact .inl (by omega)

/-- The loop of R131 from `n` finds the lowest candidate from `n` on that is not present, or passes them all. -/
theorem skipOccupied_spec (m : Memory) {n : Nat} (hn : n ≤ Config.wordLimit) :
    n ≤ skipOccupied m m.length n ∧ skipOccupied m m.length n ≤ Config.wordLimit ∧
    (∀ id, n ≤ id → id < skipOccupied m m.length n → Memory.present m id = true) ∧
    (skipOccupied m m.length n < Config.wordLimit → Memory.present m (skipOccupied m m.length n) = false) := by
  obtain ⟨h1, h2, h3, h4⟩ := skipOccupied_fuel m m.length n
  set r := skipOccupied m m.length n with hr
  have hle : r ≤ Config.wordLimit := by
    by_contra hgt
    have := (h3 (r - 1) (by omega) (by omega)).1
    omega
  refine ⟨h1, hle, fun id hid hlt => (h3 id hid hlt).2, fun hlt => ?_⟩
  by_cases hfuel : r < n + m.length
  · rcases h4 hfuel with h | h
    · omega
    · exact h
  · by_contra hp
    rw [Bool.not_eq_false] at hp
    have hcard := card_present_le m (Finset.Icc n r) fun id hid => by
      rw [Finset.mem_Icc] at hid
      rcases Nat.eq_or_lt_of_le hid.2 with rfl | hlt'
      · exact hp
      · exact (h3 id hid.1 hlt').2
    rw [Nat.card_Icc] at hcard
    omega

/-! ### The pool as a set -/

@[simp] theorem mem_insertId (id x : Nat) (l : List Nat) : x ∈ insertId id l ↔ x = id ∨ x ∈ l := by
  induction l with
  | nil => simp [insertId]
  | cons p l ih =>
    by_cases h1 : id < p
    · simp [insertId, h1]
    · by_cases h2 : id = p
      · subst h2
        simp [insertId]
      · simp only [insertId, h1, h2, if_false, List.mem_cons, ih]
        tauto

theorem pairwise_insertId {id : Nat} {l : List Nat} (h : l.Pairwise (· < ·)) : (insertId id l).Pairwise (· < ·) := by
  induction l with
  | nil => simp [insertId]
  | cons p l ih =>
    obtain ⟨hh, ht⟩ := List.pairwise_cons.1 h
    by_cases h1 : id < p
    · rw [insertId, if_pos h1, List.pairwise_cons]
      refine ⟨fun x hx => ?_, h⟩
      rcases List.mem_cons.1 hx with rfl | hx
      · exact h1
      · exact lt_trans h1 (hh x hx)
    · by_cases h2 : id = p
      · rw [insertId, if_neg h1, if_pos h2]
        exact h
      · rw [insertId, if_neg h1, if_neg h2, List.pairwise_cons]
        refine ⟨fun x hx => ?_, ih ht⟩
        rcases (mem_insertId id x l).1 hx with rfl | hx
        · omega
        · exact hh x hx

theorem le_foldl_max_iff (x n : Nat) (l : List Nat) : x ≤ l.foldl max n ↔ x ≤ n ∨ ∃ p ∈ l, x ≤ p := by
  induction l generalizing n with
  | nil => simp
  | cons p l ih =>
    rw [List.foldl_cons, ih]
    simp only [le_max_iff, List.mem_cons, exists_eq_or_imp]
    tauto

/-- Below M means below the next-candidate or below a member of the pool. -/
theorem State.le_poolTop_iff (s : State) (x : Nat) : x ≤ s.poolTop ↔ x ≤ s.next ∨ ∃ p ∈ s.pool, x ≤ p :=
  le_foldl_max_iff x s.next s.pool

/-! ### What an allocator operation does -/

/-- All that a storage request can do. -/
theorem State.takeStorage_cases (s : State) :
    (s.storageGrants = some 0 ∧ s.takeStorage = .error .resourceExhausted) ∨
    (s.storageGrants ≠ some 0 ∧
      s.takeStorage = .ok { s with storageGrants := s.storageGrants.map (· - 1) }) := by
  obtain ⟨_, _, _, _, _, _, _, _, _, _, g⟩ := s
  rcases g with - | - | k
  · exact .inr ⟨by simp, rfl⟩
  · exact .inl ⟨rfl, rfl⟩
  · exact .inr ⟨by simp, by simp [State.takeStorage]⟩

/-- All that `Alloc` can do (R131, R135). -/
theorem alloc_cases (n : Nat) (s : State) :
    ((Config.wordLimit ≤ s.next ∨ s.storageGrants = some 0) ∧ alloc n s = .error .resourceExhausted) ∨
    (s.next < Config.wordLimit ∧ s.storageGrants ≠ some 0 ∧ alloc n s = .ok (s.next,
      { s with
        bank := Memory.put s.bank s.next (BankArray.zeros n)
        pool := (refill s.bank s.pool s.next).1
        next := (refill s.bank s.pool s.next).2
        storageGrants := s.storageGrants.map (· - 1) })) := by
  by_cases hn : Config.wordLimit ≤ s.next
  · exact .inl ⟨.inl hn, by simp [alloc, hn]⟩
  · rcases s.takeStorage_cases with ⟨hg, hs⟩ | ⟨hg, hs⟩
    · exact .inl ⟨.inr hg, by rw [alloc, if_neg hn, hs]⟩
    · exact .inr ⟨by omega, hg, by rw [alloc, if_neg hn, hs]; rfl⟩

/-- All that `Free` can do (R138). -/
theorem free_cases (id : Nat) (s : State) :
    (id = 0 ∧ free id s = .error .freeZero) ∨
    (id ≠ 0 ∧ Memory.present s.bank id = false ∧ free id s = .error .freeNotFound) ∨
    (id ≠ 0 ∧ Memory.present s.bank id = true ∧ free id s = .ok
      { s with
        bank := Memory.delete s.bank id
        pool := (giveBack s.pool s.next id).1
        next := (giveBack s.pool s.next id).2 }) := by
  by_cases h0 : id = 0
  · exact .inl ⟨h0, by simp [free, h0]⟩
  · cases hp : Memory.present s.bank id with
    | false => exact .inr (.inl ⟨h0, rfl, by simp [free, h0, hp]⟩)
    | true => exact .inr (.inr ⟨h0, rfl, by rw [free, if_neg h0, if_pos hp]; rfl⟩)

/-- All that Load Program's replacement of array 0 can do (44_program_and_immediate.md R171). -/
theorem copyToProgram_cases (id : Nat) (s : State) :
    (Memory.find s.bank id = none ∧ copyToProgram id s = .error .loadNotFound) ∨
    (∃ a, Memory.find s.bank id = some a ∧ s.storageGrants = some 0 ∧ copyToProgram id s = .error .resourceExhausted) ∨
    (∃ a, Memory.find s.bank id = some a ∧ s.storageGrants ≠ some 0 ∧ copyToProgram id s = .ok
      { s with bank := Memory.put s.bank 0 a, storageGrants := s.storageGrants.map (· - 1) }) := by
  cases hf : Memory.find s.bank id with
  | none => exact .inl ⟨rfl, by simp [copyToProgram, hf]⟩
  | some a =>
    rcases s.takeStorage_cases with ⟨hg, hs⟩ | ⟨hg, hs⟩
    · exact .inr (.inl ⟨a, rfl, hg, by simp [copyToProgram, hf, hs]⟩)
    · exact .inr (.inr ⟨a, rfl, hg, by simp only [copyToProgram, hf, hs]; rfl⟩)

/-! ### The invariant -/

/-- The next-candidate is not present (R132 clause 3, R137). -/
theorem AllocatorInv.next_unused {s : State} (h : AllocatorInv s) (hn : s.next < Config.wordLimit) :
    Memory.present s.bank s.next = false :=
  (h.unused_iff _ h.next_pos ((s.le_poolTop_iff _).2 (.inl (le_refl _))) hn).2 (.inl rfl)

/-- Every identifier below the next-candidate is in use (R132 clause 3). -/
theorem AllocatorInv.used_below {s : State} (h : AllocatorInv s) {id : Nat} (h1 : 1 ≤ id) (hlt : id < s.next) :
    Memory.present s.bank id = true := by
  have hlim : id < Config.wordLimit := lt_of_lt_of_le hlt h.next_le
  have hiff := h.unused_iff id h1 ((s.le_poolTop_iff _).2 (.inl hlt.le)) hlim
  by_contra hp
  rw [Bool.not_eq_true] at hp
  rcases hiff.1 hp with he | hm
  · omega
  · have := (h.pool_above id hm).1
    omega

/-- `Alloc` keeps the allocator's invariant (R132): the new array takes the next-candidate's place. -/
theorem AllocatorInv.refill {s t : State} (h : AllocatorInv s) (hn : s.next < Config.wordLimit) (a : BankArray)
    (hb : t.bank = Memory.put s.bank s.next a) (hp : t.pool = (refill s.bank s.pool s.next).1)
    (hx : t.next = (Machine.refill s.bank s.pool s.next).2) : AllocatorInv t := by
  have present_t : ∀ id, Memory.present t.bank id = (decide (id = s.next) || Memory.present s.bank id) := fun id => by
    rw [hb, Memory.present_put]
  cases hpool : s.pool with
  | cons p rest =>
    simp only [Machine.refill, hpool] at hp hx
    have hrise : (p :: rest).Pairwise (· < ·) := hpool ▸ h.pool_rises
    obtain ⟨hh, ht⟩ := List.pairwise_cons.1 hrise
    have hpa := h.pool_above p (by simp [hpool])
    have top : ∀ x, x ≤ t.poolTop ↔ x ≤ s.poolTop := fun x => by
      rw [t.le_poolTop_iff, s.le_poolTop_iff, hp, hx, hpool]
      simp only [List.mem_cons, exists_eq_or_imp]
      constructor
      · tauto
      · rintro (hle | hle | hle)
        · exact .inl (by omega)
        · exact .inl hle
        · exact .inr hle
    have top_lt : ∀ x, t.poolTop < x ↔ s.poolTop < x := fun x => by
      rw [← not_le, ← not_le, top]
    refine ⟨by omega, by omega, hp ▸ ht, fun q hq => ?_, fun id h1 hle hlim => ?_, ?_⟩
    · rw [hp] at hq
      rw [hx]
      exact ⟨hh q hq, (h.pool_above q (by simp [hpool, hq])).2⟩
    · have hiff := h.unused_iff id h1 ((top id).1 hle) hlim
      rw [present_t, hp, hx]
      by_cases he : id = s.next
      · subst he
        simp only [decide_true, Bool.true_or]
        constructor
        · simp
        · rintro (he | hm)
          · omega
          · have := (h.pool_above s.next (by simp [hpool, hm])).1
            omega
      · simp only [he, decide_false, Bool.false_or, hiff, false_or, hpool, List.mem_cons]
    · refine h.above_top.imp (fun hu id hgt hlim => ?_) (fun hu id hgt hlim => ?_)
      · rw [present_t, hu id ((top_lt id).1 hgt) hlim]
        have : s.next < id := lt_of_le_of_lt ((s.le_poolTop_iff _).2 (.inl (le_refl _))) ((top_lt id).1 hgt)
        simp
        omega
      · rw [present_t, hu id ((top_lt id).1 hgt) hlim]
        simp
  | nil =>
    simp only [Machine.refill, hpool] at hp hx
    obtain ⟨h1, h2, h3, h4⟩ := skipOccupied_spec s.bank (show s.next + 1 ≤ Config.wordLimit by omega)
    rw [← hx] at h1 h2 h3 h4
    have htop : ∀ x, x ≤ t.poolTop ↔ x ≤ t.next := fun x => by
      rw [t.le_poolTop_iff, hp]
      simp
    have stop : ∀ x, x ≤ s.poolTop ↔ x ≤ s.next := fun x => by
      rw [s.le_poolTop_iff, hpool]
      simp
    have hlow : ∀ id, 1 ≤ id → id < t.next → Memory.present t.bank id = true := fun id hpos hlt => by
      rw [present_t]
      rcases Nat.lt_trichotomy id s.next with hc | hc | hc
      · simp [h.used_below hpos hc]
      · simp [hc]
      · simp [h3 id hc hlt]
    refine ⟨by omega, h2, by simp [hp], by simp [hp], fun id hpos hle hlim => ?_, ?_⟩
    · rw [hp]
      simp only [List.not_mem_nil, or_false]
      rcases Nat.lt_or_ge id t.next with hlt | hge
      · simp [hlow id hpos hlt, hlt.ne]
      · have he : id = t.next := le_antisymm ((htop id).1 hle) hge
        subst he
        have : t.next ≠ s.next := by omega
        simp [present_t, this, h4 hlim]
    · have gt : ∀ id, t.poolTop < id → s.poolTop < id ∧ id ≠ s.next := fun id hgt => by
        rw [← not_le, htop] at hgt
        rw [← not_le, stop]
        omega
      refine h.above_top.imp (fun hu id hgt hlim => ?_) (fun hu id hgt hlim => ?_)
      · obtain ⟨hg, hne⟩ := gt id hgt
        simp [present_t, hne, hu id hg hlim]
      · obtain ⟨hg, hne⟩ := gt id hgt
        simp [present_t, hu id hg hlim]

/-- What a freed identifier leaves in the pool and the next-candidate, as a set (R138). -/
theorem mem_giveBack (pool : List Nat) (next id x : Nat) (hn : next ≤ Config.wordLimit) (hx : x < Config.wordLimit) :
    (x = (giveBack pool next id).2 ∨ x ∈ (giveBack pool next id).1) ↔ x = id ∨ x = next ∨ x ∈ pool := by
  by_cases hlt : id < next
  · by_cases hl : next < Config.wordLimit
    · simp [giveBack, hlt, hl]
    · have : x ≠ next := by omega
      simp [giveBack, hlt, hl, this]
  · simp only [giveBack, hlt, if_false, mem_insertId]
    tauto

/-- `Free` keeps the allocator's invariant (R139). -/
theorem AllocatorInv.giveBack {s t : State} (h : AllocatorInv s) {id : Nat} (h0 : id ≠ 0) (hlim : id < Config.wordLimit)
    (hpres : Memory.present s.bank id = true) (hb : t.bank = Memory.delete s.bank id)
    (hp : t.pool = (giveBack s.pool s.next id).1) (hx : t.next = (Machine.giveBack s.pool s.next id).2) :
    AllocatorInv t := by
  have present_t : ∀ j, Memory.present t.bank j = (!decide (j = id) && Memory.present s.bank j) := fun j => by
    rw [hb, Memory.present_delete]
  have members : ∀ x, x < Config.wordLimit → ((x = t.next ∨ x ∈ t.pool) ↔ x = id ∨ x = s.next ∨ x ∈ s.pool) :=
    fun x hxl => by
      rw [hp, hx]
      exact mem_giveBack s.pool s.next id x h.next_le hxl
  have hne : id ≠ s.next := fun he => by
    have := h.next_unused (he ▸ hlim)
    rw [← he, hpres] at this
    cases this
  have notPool : id ∉ s.pool := fun hm => by
    have := (h.unused_iff id (by omega) ((s.le_poolTop_iff id).2 (.inr ⟨id, hm, le_refl _⟩)) hlim).2 (.inr hm)
    rw [hpres] at this
    cases this
  have rises : t.pool.Pairwise (· < ·) := by
    rw [hp, Machine.giveBack]
    split
    · split
      · exact pairwise_insertId h.pool_rises
      · exact h.pool_rises
    · exact pairwise_insertId h.pool_rises
  have next_le_id : t.next ≤ id ∧ t.next ≤ s.next ∧ 1 ≤ t.next := by
    rw [hx, Machine.giveBack]
    have := h.next_pos
    split <;> simp only <;> omega
  have above : ∀ p ∈ t.pool, t.next < p ∧ p < Config.wordLimit := fun p hm => by
    by_cases hlt : id < s.next
    · simp only [Machine.giveBack, hlt, if_true] at hp hx
      rw [hx]
      rw [hp] at hm
      split at hm
      · rcases (mem_insertId _ _ _).1 hm with rfl | hm
        · exact ⟨hlt, by assumption⟩
        · exact ⟨lt_trans hlt (h.pool_above p hm).1, (h.pool_above p hm).2⟩
      · exact ⟨lt_trans hlt (h.pool_above p hm).1, (h.pool_above p hm).2⟩
    · simp only [Machine.giveBack, hlt, if_false] at hp hx
      rw [hx]
      rw [hp] at hm
      rcases (mem_insertId _ _ _).1 hm with rfl | hm
      · exact ⟨by omega, hlim⟩
      · exact h.pool_above p hm
  -- whether an identifier is unused in the new bank, in terms of the old one
  have unused_t : ∀ j, Memory.present t.bank j = false ↔ j = id ∨ Memory.present s.bank j = false := fun j => by
    rw [present_t]
    by_cases hj : j = id <;> simp [hj]
  by_cases hid : id ≤ s.poolTop
  · -- the freed identifier is below M
    by_cases hfull : s.next < Config.wordLimit
    · have top : ∀ x, x ≤ t.poolTop ↔ x ≤ s.poolTop := by
        intro x
        rw [t.le_poolTop_iff, s.le_poolTop_iff]
        constructor
        · rintro (hle | ⟨p, hm, hle⟩)
          · exact .inl (by omega)
          · rcases (members p (above p hm).2).1 (.inr hm) with rfl | rfl | hm'
            · exact (s.le_poolTop_iff x).1 (le_trans hle hid)
            · exact .inl hle
            · exact .inr ⟨p, hm', hle⟩
        · rintro (hle | ⟨p, hm, hle⟩)
          · rcases (members s.next hfull).2 (.inr (.inl rfl)) with he | hm
            · exact .inl (he ▸ hle)
            · exact .inr ⟨_, hm, hle⟩
          · rcases (members p (h.pool_above p hm).2).2 (.inr (.inr hm)) with he | hm'
            · exact .inl (he ▸ hle)
            · exact .inr ⟨p, hm', hle⟩
      have top_lt : ∀ x, t.poolTop < x ↔ s.poolTop < x := fun x => by
        rw [← not_le, ← not_le, top]
      refine ⟨next_le_id.2.2, le_trans next_le_id.2.1 h.next_le, rises, above, fun j h1 hle hl => ?_, ?_⟩
      · rw [unused_t, members j hl, h.unused_iff j h1 ((top j).1 hle) hl]
      · refine h.above_top.imp (fun hu j hgt hl => ?_) (fun hu j hgt hl => ?_)
        · exact (unused_t j).2 (.inr (hu j ((top_lt j).1 hgt) hl))
        · have hj : j ≠ id := by
            have := (top_lt j).1 hgt
            omega
          rw [present_t, hu j ((top_lt j).1 hgt) hl]
          simp [hj]
    · -- every identifier was in use: the freed one is the only candidate
      have hnext : s.next = Config.wordLimit := le_antisymm h.next_le (by omega)
      have hpool : s.pool = [] := List.eq_nil_iff_forall_not_mem.2 fun p hm => by
        have := h.pool_above p hm
        omega
      have hlt : id < s.next := by omega
      have tn : t.next = id := by simp [hx, Machine.giveBack, hlt]
      have tp : t.pool = [] := by simp [hp, Machine.giveBack, hlt, hfull, hpool]
      have used : ∀ j, 1 ≤ j → j < Config.wordLimit → Memory.present s.bank j = true := fun j h1 hl =>
        h.used_below h1 (by omega)
      have top : ∀ x, x ≤ t.poolTop ↔ x ≤ id := fun x => by
        rw [t.le_poolTop_iff, tp, tn]
        simp
      refine ⟨next_le_id.2.2, le_trans next_le_id.2.1 h.next_le, rises, above, fun j h1 hle hl => ?_, .inr ?_⟩
      · rw [unused_t, tn, tp, used j h1 hl]
        simp
      · intro j hgt hl
        rw [← not_le, top] at hgt
        have hj : j ≠ id := by omega
        rw [present_t, used j (by omega) hl]
        simp [hj]
  · -- the freed identifier is above M, so every identifier above M was in use
    have hu : ∀ j, s.poolTop < j → j < Config.wordLimit → Memory.present s.bank j = true := by
      rcases h.above_top with hu | hu
      · have := hu id (by omega) hlim
        rw [hpres] at this
        cases this
      · exact hu
    have hns : s.next ≤ s.poolTop := (s.le_poolTop_iff _).2 (.inl (le_refl _))
    have hge : ¬ id < s.next := by omega
    have tn : t.next = s.next := by simp [hx, Machine.giveBack, hge]
    have tp : t.pool = insertId id s.pool := by simp [hp, Machine.giveBack, hge]
    have top : ∀ x, x ≤ t.poolTop ↔ x ≤ id := fun x => by
      rw [t.le_poolTop_iff, tp, tn]
      constructor
      · rintro (hle | ⟨p, hm, hle⟩)
        · omega
        · rcases (mem_insertId _ _ _).1 hm with rfl | hm
          · exact hle
          · have := (s.le_poolTop_iff p).2 (.inr ⟨p, hm, le_refl _⟩)
            omega
      · exact fun hle => .inr ⟨id, by simp, hle⟩
    refine ⟨next_le_id.2.2, le_trans next_le_id.2.1 h.next_le, rises, above, fun j h1 hle hl => ?_, .inr ?_⟩
    · rw [unused_t, members j hl]
      by_cases hj : j ≤ s.poolTop
      · rw [h.unused_iff j h1 hj hl]
      · have hpj := hu j (by omega) hl
        have hm : j ∉ s.pool := fun hm => hj ((s.le_poolTop_iff j).2 (.inr ⟨j, hm, le_refl _⟩))
        have hjn : j ≠ s.next := by omega
        simp [hpj, hm, hjn]
    · intro j hgt hl
      rw [← not_le, top] at hgt
      have hj : j ≠ id := by omega
      rw [present_t, hu j (by omega) hl]
      simp [hj]

end Sys2Proof.Machine
end

