-- ==== Sys2Proof/Laws/Channels.lean ====
section
/-! SUPPORT. The channels (43_io.md): what Output, Input and the host's answer do to the state, each said once. -/

namespace Sys2Proof.Machine

/-- `Emit(b)` delivers the byte and leaves the staging empty (R151, R152). -/
theorem emit_eq (b : Byte) (s : State) : emit b s = { s with trace := s.trace ++ [.out b], outStaging := none } := rfl

/-- The flush before a read is an event when output goes to standard output, and nothing otherwise (R161). -/
theorem flushBeforeRead_eq (s : State) :
    flushBeforeRead s = { s with trace := s.trace ++ (if s.dedicatedSink then [] else [.flush]) } := by
  by_cases h : s.dedicatedSink = true
  · rw [flushBeforeRead, if_pos h, if_pos h, List.append_nil]
  · rw [flushBeforeRead, if_neg h, if_neg h]
    rfl

/-- The whole request of Input: its events, and the wait (R153, R160). -/
theorem requestInput_flushBeforeRead (c : Reg) (s : State) :
    requestInput c (flushBeforeRead s) =
      { s with
        trace := s.trace ++ (if s.dedicatedSink then [.inReq] else [.flush, .inReq])
        run := .awaitInput c } := by
  rw [flushBeforeRead_eq]
  by_cases h : s.dedicatedSink = true <;> simp [requestInput, h, State.send, State.setRun]

/-- All that a step of the wait can do: nothing, or take the first answer (40_fetch_decode_execute.md R98, 43_io.md R160). -/
theorem awaitAnswer_cases (c : Reg) (s : State) :
    (s.hostAnswers = [] ∧ awaitAnswer c s = s) ∨
    (∃ a rest, s.hostAnswers = a :: rest ∧ awaitAnswer c s =
      { s with
        regs := s.regs.write c (answerWord a)
        run := .running
        trace := s.trace ++ [.answer a]
        hostAnswers := rest }) := by
  cases h : s.hostAnswers with
  | nil => exact .inl ⟨rfl, by simp only [awaitAnswer, h]⟩
  | cons a rest => exact .inr ⟨a, rest, rfl, by simp only [awaitAnswer, h]; rfl⟩

/-- The byte of Output is there exactly for a value of at most 255 (R158). -/
theorem outputByte_eq_some {v : Word} (h : v.toNat ≤ 255) : outputByte v = some (v.extractLsb' 0 8) := by
  rw [outputByte, if_neg (by omega)]

theorem outputByte_eq_none {v : Word} (h : 255 < v.toNat) : outputByte v = none := by
  rw [outputByte, if_pos h]

end Sys2Proof.Machine
end

