-- ==== Sys2Proof/Laws/Encoding.lean ====
section
/-! SUPPORT. The fields of an encoded word (30_encoding.md R83 against R71 and R72), each read back once. -/

namespace Sys2Proof

@[simp] theorem regOfSelector_selectorOfReg (r : Reg) : regOfSelector (selectorOfReg r) = r := by
  cases r <;> rfl

@[simp] theorem selectorOfReg_regOfSelector (sel : BitVec 3) : selectorOfReg (regOfSelector sel) = sel := by
  revert sel
  decide

/-- The bits of `enc_S`, by position. -/
theorem getLsbD_encodeS (op : BitVec 4) (a b c : BitVec 3) (i : Nat) :
    (encodeS op a b c).getLsbD i =
      if i < 3 then c.getLsbD i else if i < 6 then b.getLsbD (i - 3) else if i < 9 then a.getLsbD (i - 6)
      else if i < 28 then false else op.getLsbD (i - 28) := by
  simp only [encodeS, BitVec.getLsbD_append, BitVec.getLsbD_zero]
  by_cases h1 : i < 3
  · simp [h1]
  by_cases h2 : i < 6
  · simp [h1, h2, show i - 3 < 3 by omega]
  by_cases h3 : i < 9
  · simp [h1, h2, h3, show ¬ i - 3 < 3 by omega, show i - 6 < 3 by omega, show i - 3 - 3 = i - 6 by omega]
  by_cases h4 : i < 28
  · simp [h1, h2, h3, h4, show ¬ i - 3 < 3 by omega, show ¬ i - 3 - 3 < 3 by omega, show i - 3 - 3 - 3 < 19 by omega]
  · simp [h1, h2, h3, h4, show ¬ i - 3 < 3 by omega, show ¬ i - 3 - 3 < 3 by omega,
      show ¬ i - 3 - 3 - 3 < 19 by omega, show i - 3 - 3 - 3 - 19 = i - 28 by omega]

/-- The bits of `enc_I`, by position. -/
theorem getLsbD_encodeI (a : BitVec 3) (imm : BitVec 25) (i : Nat) :
    (encodeI a imm).getLsbD i =
      if i < 25 then imm.getLsbD i else if i < 28 then a.getLsbD (i - 25) else (13#4).getLsbD (i - 28) := by
  simp only [encodeI, BitVec.getLsbD_append]
  by_cases h1 : i < 25
  · simp [h1]
  by_cases h2 : i < 28
  · simp [h1, h2, show i - 25 < 3 by omega]
  · simp [h1, h2, show ¬ i - 25 < 3 by omega, show i - 25 - 3 = i - 28 by omega]

/-- The bits of `enc_H`, by position. -/
theorem getLsbD_encodeH (op : BitVec 4) (i : Nat) :
    (encodeH op).getLsbD i = if i < 28 then false else op.getLsbD (i - 28) := by
  simp only [encodeH, BitVec.getLsbD_append, BitVec.getLsbD_zero]

@[simp] theorem opcodeField_encodeS (op : BitVec 4) (a b c : BitVec 3) : opcodeField (encodeS op a b c) = op := by
  refine BitVec.eq_of_getLsbD_eq fun i hi => ?_
  simp [opcodeField, getLsbD_encodeS, hi, show ¬ 28 + i < 3 by omega, show ¬ 28 + i < 6 by omega,
    show ¬ 28 + i < 9 by omega]

@[simp] theorem opcodeField_encodeI (a : BitVec 3) (imm : BitVec 25) : opcodeField (encodeI a imm) = 13#4 := by
  refine BitVec.eq_of_getLsbD_eq fun i hi => ?_
  simp [opcodeField, getLsbD_encodeI, hi, show ¬ 28 + i < 25 by omega]

@[simp] theorem opcodeField_encodeH (op : BitVec 4) : opcodeField (encodeH op) = op := by
  refine BitVec.eq_of_getLsbD_eq fun i hi => ?_
  simp [opcodeField, getLsbD_encodeH, hi]

@[simp] theorem fieldA_encodeS (op : BitVec 4) (a b c : BitVec 3) : fieldA (encodeS op a b c) = regOfSelector a := by
  refine congrArg regOfSelector (BitVec.eq_of_getLsbD_eq fun i hi => ?_)
  simp [getLsbD_encodeS, hi, show ¬ 6 + i < 3 by omega, show 6 + i < 9 by omega]

@[simp] theorem fieldB_encodeS (op : BitVec 4) (a b c : BitVec 3) : fieldB (encodeS op a b c) = regOfSelector b := by
  refine congrArg regOfSelector (BitVec.eq_of_getLsbD_eq fun i hi => ?_)
  simp [getLsbD_encodeS, hi, show 3 + i < 6 by omega]

@[simp] theorem fieldC_encodeS (op : BitVec 4) (a b c : BitVec 3) : fieldC (encodeS op a b c) = regOfSelector c := by
  refine congrArg regOfSelector (BitVec.eq_of_getLsbD_eq fun i hi => ?_)
  simp [getLsbD_encodeS, hi]

@[simp] theorem fieldA'_encodeI (a : BitVec 3) (imm : BitVec 25) : fieldA' (encodeI a imm) = regOfSelector a := by
  refine congrArg regOfSelector (BitVec.eq_of_getLsbD_eq fun i hi => ?_)
  simp [getLsbD_encodeI, hi, show 25 + i < 28 by omega]

@[simp] theorem fieldImm_encodeI (a : BitVec 3) (imm : BitVec 25) : fieldImm (encodeI a imm) = imm := by
  refine BitVec.eq_of_getLsbD_eq fun i hi => ?_
  simp [fieldImm, getLsbD_encodeI, hi]

end Sys2Proof
end

