-- ==== Sys2Proof/Laws/Invariant.lean ====
section
/-! SUPPORT. When a state written out in full has the invariant. -/

namespace Sys2Proof.Machine

/-- The allocator's invariant while nothing was freed: the identifiers in use are exactly those below the next-candidate. -/
theorem AllocatorInv.of_dense {s : State} (h1 : 1 ≤ s.next) (hn : s.next ≤ Config.wordLimit) (hp : s.pool = [])
    (hb : ∀ id, Memory.present s.bank id = true ↔ id < s.next) : AllocatorInv s := by
  have top : s.poolTop = s.next := by simp [State.poolTop, hp]
  have absent : ∀ id, Memory.present s.bank id = false ↔ s.next ≤ id := fun id => by
    rw [← Bool.not_eq_true, hb, Nat.not_lt]
  refine ⟨h1, hn, by simp [hp], by simp [hp], fun id _ hle _ => ?_, .inl fun id hlt _ => ?_⟩
  · rw [absent, hp]
    simp only [List.not_mem_nil, or_false]
    omega
  · rw [absent]
    omega

end Sys2Proof.Machine
end

