-- ==== Sys2Proof/Laws/PerInstr.lean ====
section
/-! SUPPORT. A family of statements about every instruction as syntax: the encoder puts into bits 31:28 the opcode value that
the opcode map gives it (30_encoding.md R78). -/

namespace Sys2Proof.Laws.OpcodeBits

/-- The opcode value of R78; the second halt row stands for two values, and its operand says which. -/
def opcodeValue (i : Instr) : Nat :=
  match i with
  | .cmov _ _ _ => 0
  | .index _ _ _ => 1
  | .amend _ _ _ => 2
  | .add _ _ _ => 3
  | .mul _ _ _ => 4
  | .div _ _ _ => 5
  | .nand _ _ _ => 6
  | .halt => 7
  | .alloc _ _ => 8
  | .free _ => 9
  | .out _ => 10
  | .inp _ => 11
  | .loadprog _ _ => 12
  | .li _ _ => 13
  | .haltUndef op => op.toNat

/-- The encoded word carries the instruction's opcode value. -/
def Statement (i : Instr) : Prop := (opcodeField (encode i)).toNat = opcodeValue i

theorem cmov (a b c : Reg) : Statement (.cmov a b c) := by simp [Statement, encode, opcodeValue]
theorem index (a b c : Reg) : Statement (.index a b c) := by simp [Statement, encode, opcodeValue]
theorem amend (a b c : Reg) : Statement (.amend a b c) := by simp [Statement, encode, opcodeValue]
theorem add (a b c : Reg) : Statement (.add a b c) := by simp [Statement, encode, opcodeValue]
theorem mul (a b c : Reg) : Statement (.mul a b c) := by simp [Statement, encode, opcodeValue]
theorem div (a b c : Reg) : Statement (.div a b c) := by simp [Statement, encode, opcodeValue]
theorem nand (a b c : Reg) : Statement (.nand a b c) := by simp [Statement, encode, opcodeValue]
theorem halt : Statement .halt := by simp [Statement, encode, opcodeValue]
theorem alloc (b c : Reg) : Statement (.alloc b c) := by simp [Statement, encode, opcodeValue]
theorem free (c : Reg) : Statement (.free c) := by simp [Statement, encode, opcodeValue]
theorem out (c : Reg) : Statement (.out c) := by simp [Statement, encode, opcodeValue]
theorem inp (c : Reg) : Statement (.inp c) := by simp [Statement, encode, opcodeValue]
theorem loadprog (b c : Reg) : Statement (.loadprog b c) := by simp [Statement, encode, opcodeValue]
theorem li (a : Reg) (imm : BitVec 25) : Statement (.li a imm) := by simp [Statement, encode, opcodeValue]
theorem haltUndef (op : BitVec 4) : Statement (.haltUndef op) := by simp [Statement, encode, opcodeValue]

end Sys2Proof.Laws.OpcodeBits
end

