-- ==== Sys2Proof/Laws/Run.lean ====
section
/-! SUPPORT. What the host and a run under fuel can do, said once. -/

namespace Sys2Proof.Machine

/-- All that the host can do before a step: nothing, or answer the pending request (43_io.md R154). -/
theorem State.supply_cases (host : HostInput) (s : State) :
    s.supply host = s ∨
    ∃ c a, s.run = .awaitInput c ∧ s.hostAnswers = [] ∧ host s.answersTaken = some a ∧ s.supply host = s.hostAnswer a := by
  unfold State.supply
  split
  · rename_i c a hr hq ha
    exact .inr ⟨c, a, hr, hq, ha, rfl⟩
  · exact .inl rfl

theorem State.supply_of_not_waiting {s : State} (h : ∀ c, s.run ≠ .awaitInput c) (host : HostInput) : s.supply host = s := by
  rcases s.supply_cases host with e | ⟨c, a, hr, -⟩
  · exact e
  · exact absurd hr (h c)

theorem State.supply_of_unanswered {s : State} {host : HostInput} (h : host s.answersTaken = none) : s.supply host = s := by
  rcases s.supply_cases host with e | ⟨c, a, -, -, ha, -⟩
  · exact e
  · rw [h] at ha
    cases ha

theorem State.supply_of_answered {s : State} {host : HostInput} {c : Reg} {a : Answer} (hr : s.run = .awaitInput c)
    (hq : s.hostAnswers = []) (ha : host s.answersTaken = some a) : s.supply host = s.hostAnswer a := by
  simp only [State.supply, hr, hq, ha]

/-- The host changes nothing but the answers ready. -/
theorem State.supply_eq (host : HostInput) (s : State) :
    s.supply host = { s with hostAnswers := (s.supply host).hostAnswers } := by
  rcases s.supply_cases host with e | ⟨c, a, -, -, -, e⟩
  · rw [e]
  · rw [e]
    rfl

@[simp] theorem runFor_zero (host : HostInput) (s : State) : runFor host 0 s = .outOfFuel s := rfl

theorem runFor_succ_of_next {host : HostInput} {s t : State} (h : step (s.supply host) = .next t) (k : Nat) :
    runFor host (k + 1) s = runFor host k t := by
  simp only [runFor, h]

theorem runFor_succ_of_fault {host : HostInput} {s : State} {why : Fault} (h : step (s.supply host) = .fault why)
    (k : Nat) : runFor host (k + 1) s = .stopped s why := by
  simp only [runFor, h]

/-- A run that ran out of fuel goes on from the state it came to. -/
theorem runFor_add_of_outOfFuel {host : HostInput} {m : Nat} {s t : State} (h : runFor host m s = .outOfFuel t)
    (k : Nat) : runFor host (m + k) s = runFor host k t := by
  induction m generalizing s with
  | zero =>
    cases h
    rw [Nat.zero_add]
  | succ m ih =>
    rw [Nat.add_right_comm]
    simp only [runFor] at h ⊢
    split at h
    · exact ih h
    · cases h
    · cases h

/-- A run that stopped stays as it is under more fuel. -/
theorem runFor_add_of_stopped {host : HostInput} {m : Nat} {s t : State} {why : Fault}
    (h : runFor host m s = .stopped t why) (k : Nat) : runFor host (m + k) s = .stopped t why := by
  induction m generalizing s with
  | zero => cases h
  | succ m ih =>
    rw [Nat.add_right_comm]
    simp only [runFor] at h ⊢
    split at h
    · exact ih h
    · exact h
    · cases h

/-- A run stops only where `step` stops, after a run that ran out of fuel. -/
theorem exists_of_runFor_stopped {host : HostInput} {m : Nat} {s t : State} {why : Fault}
    (h : runFor host m s = .stopped t why) :
    ∃ k, k < m ∧ runFor host k s = .outOfFuel t ∧ step (t.supply host) = .fault why := by
  induction m generalizing s with
  | zero => cases h
  | succ m ih =>
    simp only [runFor] at h
    split at h
    · obtain ⟨k, hk, h1, h2⟩ := ih h
      rename_i u hs
      exact ⟨k + 1, Nat.succ_lt_succ hk, by rw [runFor_succ_of_next hs, h1], h2⟩
    · cases h
      rename_i hs
      exact ⟨0, Nat.succ_pos m, rfl, hs⟩
    · cases h

/-- A run with any host stays among the states that runs reach. -/
theorem Reachable.of_runFor {host : HostInput} {m : Nat} {s t : State} (hs : Reachable s)
    (h : runFor host m s = .outOfFuel t) : Reachable t := by
  induction m generalizing s with
  | zero =>
    cases h
    exact hs
  | succ m ih =>
    simp only [runFor] at h
    split at h
    · rename_i u hu
      refine ih (.step _ _ ?_ hu) h
      rcases s.supply_cases host with e | ⟨c, a, -, -, -, e⟩ <;> rw [e]
      · exact hs
      · exact .answer _ _ hs
    · cases h
    · cases h

end Sys2Proof.Machine
end

