-- ==== Sys2Proof/Laws/Step.lean ====
section
/-! SUPPORT. What a step can do, said once: the fetch, the outcome of an instruction, and the step itself. -/

namespace Sys2Proof.Machine

/-- All that the fetch can find (40_fetch_decode_execute.md R90, R91). -/
theorem fetch_cases (s : State) :
    (Memory.find s.bank 0 = none ∧ fetch s = .programAbsent) ∨
    (∃ a, Memory.find s.bank 0 = some a ∧ a.len ≤ s.pc.toNat ∧ fetch s = .outOfBounds) ∨
    (∃ a, Memory.find s.bank 0 = some a ∧ s.pc.toNat < a.len ∧ fetch s = .word (a.word s.pc.toNat)) := by
  cases hf : Memory.find s.bank 0 with
  | none => exact .inl ⟨rfl, by simp [fetch, hf]⟩
  | some a =>
    by_cases ho : a.len ≤ s.pc.toNat
    · exact .inr (.inl ⟨a, rfl, ho, by simp [fetch, hf, ho]⟩)
    · exact .inr (.inr ⟨a, rfl, by omega, by simp [fetch, hf, ho]⟩)

/-- The fetch finds the Word that memory holds at `pc` in array 0. -/
theorem fetch_eq_word_iff (s : State) (w : Word) : fetch s = .word w ↔ s.word? 0 s.pc.toNat = some w := by
  rw [State.word?_eq_some_iff]
  rcases fetch_cases s with ⟨hf, he⟩ | ⟨a, hf, ho, he⟩ | ⟨a, hf, ho, he⟩
  · simp [he, hf]
  · simp only [he, hf]
    constructor
    · intro h
      cases h
    · rintro ⟨b, hb, hlt, -⟩
      cases hb
      omega
  · simp only [he, hf, Fetched.word.injEq]
    constructor
    · exact fun h => ⟨a, rfl, ho, h⟩
    · rintro ⟨b, hb, -, hw⟩
      cases hb
      exact hw

/-- All that an instruction can do (41_three_register.md to 44_program_and_immediate.md), one case per kind of effect. -/
inductive Effect (i : Instr) (s : State) : State → Prop where
  /-- Nothing is written. -/
  | unchanged : Effect i s s
  /-- One register is written. -/
  | register (r : Reg) (v : Word) : Effect i s (s.setReg r v)
  /-- One Word of a present array is written. -/
  | amended (id off : Nat) (v : Word) (a : BankArray) (hf : Memory.find s.bank id = some a) (ho : off < a.len) :
      Effect i s (s.setBank (Memory.put s.bank id (a.setWord off v)))
  /-- Allocation takes the next-candidate. -/
  | allocated (b c : Reg) (hi : i = .alloc b c) (hn : s.next < Config.wordLimit) (hg : s.storageGrants ≠ some 0) :
      Effect i s
        { s with
          bank := Memory.put s.bank s.next (BankArray.zeros (s.reg c).toNat)
          pool := (refill s.bank s.pool s.next).1
          next := (refill s.bank s.pool s.next).2
          storageGrants := s.storageGrants.map (· - 1)
          regs := s.regs.write b (identifierWord s.next) }
  /-- Deallocation gives an identifier back. -/
  | freed (c : Reg) (hi : i = .free c) (h0 : (s.reg c).toNat ≠ 0) (hp : Memory.present s.bank (s.reg c).toNat = true) :
      Effect i s
        { s with
          bank := Memory.delete s.bank (s.reg c).toNat
          pool := (giveBack s.pool s.next (s.reg c).toNat).1
          next := (giveBack s.pool s.next (s.reg c).toNat).2 }
  /-- Load Program jumps within the program. -/
  | jumped (b c : Reg) (hi : i = .loadprog b c) (hb : s.reg b = 0#32) : Effect i s (s.setPc (s.reg c))
  /-- Load Program replaces array 0 and jumps. -/
  | replaced (b c : Reg) (a : BankArray) (hi : i = .loadprog b c) (hb : s.reg b ≠ 0#32)
      (hf : Memory.find s.bank (s.reg b).toNat = some a) (hg : s.storageGrants ≠ some 0) :
      Effect i s
        { s with
          bank := Memory.put s.bank 0 a
          storageGrants := s.storageGrants.map (· - 1)
          pc := s.reg c }
  /-- Output delivers a byte. -/
  | emitted (c : Reg) (b : Byte) (hi : i = .out c) :
      Effect i s { s with trace := s.trace ++ [.out b], outStaging := none }
  /-- Input sends its request and waits. -/
  | requested (c : Reg) (hi : i = .inp c) :
      Effect i s
        { s with
          trace := s.trace ++ (if s.dedicatedSink then [.inReq] else [.flush, .inReq])
          run := .awaitInput c }
  /-- The run ends cleanly. -/
  | halted (hi : i = .halt ∨ ∃ op, i = .haltUndef op) : Effect i s (s.setRun .halted)
  /-- A fatal condition is raised, and nothing is written. -/
  | aborted (reason : FatalReason) (hr : reason ≠ .fetchOutOfBounds) : Effect i s (raiseFatal reason s)

/-- Every next state an instruction answers is one of its effects. Whole-machine claims follow from this list. -/
theorem exec_effect {i : Instr} {s t : State} (h : exec i s = .next t) : Effect i s t := by
  cases i with
  | cmov a b c =>
    simp only [exec, execCmov, Host.Outcome.next.injEq] at h
    subst h
    split
    · exact .register _ _
    · exact .unchanged
  | index a b c =>
    simp only [exec, execIndex] at h
    rcases Memory.read_cases s.bank .indexNotFound .indexOutOfBounds (s.identifier b) (s.offset c) with
      ⟨-, he⟩ | ⟨-, -, -, he⟩ | ⟨a', -, -, he⟩ <;> rw [he] at h <;> cases h
    · exact .aborted _ (by simp)
    · exact .aborted _ (by simp)
    · exact .register _ _
  | amend a b c =>
    simp only [exec, execAmend] at h
    rcases Memory.write_cases s.bank .amendNotFound .amendOutOfBounds (s.identifier a) (s.offset b) (s.reg c) with
      ⟨-, he⟩ | ⟨-, -, -, he⟩ | ⟨_, hf, ho, he⟩ <;> rw [he] at h <;> cases h
    · exact .aborted _ (by simp)
    · exact .aborted _ (by simp)
    · exact .amended _ _ _ _ hf ho
  | add a b c =>
    cases h
    exact .register _ _
  | mul a b c =>
    cases h
    exact .register _ _
  | div a b c =>
    simp only [exec, execDiv] at h
    split at h <;> cases h
    · exact .aborted _ (by simp)
    · exact .register _ _
  | nand a b c =>
    cases h
    exact .register _ _
  | halt =>
    cases h
    exact .halted (.inl rfl)
  | alloc b c =>
    simp only [exec, execAlloc] at h
    rcases alloc_cases (s.length c) s with ⟨-, he⟩ | ⟨hn, hg, he⟩ <;> rw [he] at h <;> cases h
    · exact .aborted _ (by simp)
    · exact .allocated b c rfl hn hg
  | free c =>
    simp only [exec, execFree] at h
    rcases free_cases (s.identifier c) s with ⟨-, he⟩ | ⟨-, -, he⟩ | ⟨h0, hp, he⟩ <;> rw [he] at h <;> cases h
    · exact .aborted _ (by simp)
    · exact .aborted _ (by simp)
    · exact .freed c rfl h0 hp
  | out c =>
    simp only [exec, execOut] at h
    split at h <;> cases h
    · exact .aborted _ (by simp)
    · exact .emitted c _ rfl
  | inp c =>
    simp only [exec, execInp, Host.Outcome.next.injEq, requestInput_flushBeforeRead] at h
    subst h
    exact .requested c rfl
  | loadprog b c =>
    simp only [exec, execLoadprog] at h
    by_cases hb : s.reg b = 0#32
    · rw [if_pos hb] at h
      cases h
      exact .jumped b c rfl hb
    · rw [if_neg hb] at h
      rcases copyToProgram_cases (s.identifier b) s with ⟨-, he⟩ | ⟨-, -, -, he⟩ | ⟨a, hf, hg, he⟩ <;>
        rw [he] at h <;> cases h
      · exact .aborted _ (by simp)
      · exact .aborted _ (by simp)
      · exact .replaced b c a rfl hb hf hg
  | li a imm =>
    cases h
    exact .register _ _
  | haltUndef op =>
    cases h
    exact .halted (.inr ⟨op, rfl⟩)

/-- All that a step can do when it answers a next state: run the instruction at `pc` from the advanced state, raise the
fetch's fatal condition, or wait for the host (40_fetch_decode_execute.md R94, R98). -/
theorem step_cases {s t : State} (h : step s = .next t) :
    (∃ w, s.run = .running ∧ s.word? 0 s.pc.toNat = some w ∧ exec (decode w) s.advancePc = .next t) ∨
    (∃ a, s.run = .running ∧ Memory.find s.bank 0 = some a ∧ a.len ≤ s.pc.toNat ∧ t = raiseFatal .fetchOutOfBounds s) ∨
    (∃ c, s.run = .awaitInput c ∧ t = awaitAnswer c s) := by
  cases hr : s.run with
  | running =>
    simp only [step, hr, stepRunning] at h
    rcases fetch_cases s with ⟨-, he⟩ | ⟨a, hf, ho, he⟩ | ⟨a, hf, ho, he⟩ <;> rw [he] at h
    · cases h
    · cases h
      exact .inr (.inl ⟨a, rfl, hf, ho, rfl⟩)
    · exact .inl ⟨_, rfl, (fetch_eq_word_iff s _).1 he, h⟩
  | awaitInput c =>
    simp only [step, hr] at h
    cases h
    exact .inr (.inr ⟨c, rfl, rfl⟩)
  | halted => simp [step, hr] at h
  | aborted reason => simp [step, hr] at h

end Sys2Proof.Machine
end

