-- ==== Sys2Proof/Tests/Slice0.lean ====
section
/-! SUPPORT. The model's own tests, with results taken from spec/95_test_vectors.md (T1 to T66, L1), and for every statement
with hypotheses a witness: a concrete state that meets them. -/

namespace Sys2Proof.Machine.Tests

open Sys2Proof.Claims

/-! ### Small states -/

/-- Reset, with a bank, a next-candidate and registers 1 to 3 preset. -/
def start (bank : Memory) (next : Nat) (x1 x2 x3 : Word) : State :=
  { State.reset with bank := bank, next := next, regs := ⟨0#32, x1, x2, x3, 0#32, 0#32, 0#32, 0#32⟩ }

/-- The start of a vector of spec/95_test_vectors.md L2: the word at offset 0, `halt` at offset 1, registers 1 to 3 preset. -/
def vector (w x1 x2 x3 : Word) : State := start [(0, BankArray.ofWords [w, 0x70000000#32])] 1 x1 x2 x3

/-- The same with an array 1. -/
def vectorWith (w : Word) (array1 : List Word) (x1 x2 x3 : Word) : State :=
  start [(0, BankArray.ofWords [w, 0x70000000#32]), (1, BankArray.ofWords array1)] 2 x1 x2 x3

/-- The next state of an outcome. -/
def nextOf (r : Result) : Option State :=
  match r with
  | .next t => some t
  | .fault _ => none
  | .refused _ => none

/-- One view of the state after a step. -/
def after {α : Type} (s : State) (view : State → α) : Option α := (nextOf (step s)).map view

/-! ### Well-formedness -/

/-- The one check of WellFormed refuses an opcode value that the second halt row does not have. -/
theorem test_wellFormed_refuses_defined_opcode : WellFormed (.haltUndef 13#4) = false := by decide
theorem test_wellFormed_refuses_opcode_7 : WellFormed (.haltUndef 7#4) = false := by decide
theorem test_wellFormed_accepts_14_and_15 :
    WellFormed (.haltUndef 14#4) = true ∧ WellFormed (.haltUndef 15#4) = true := by decide

/-! ### Decoding: words written from the formats of 30_encoding.md, opcode | unnamed bits | A | B | C -/

theorem test_decode_cmov : decode 0b0000_0000000000000000000_001_010_011#32 = .cmov .r1 .r2 .r3 := by decide
theorem test_decode_index : decode 0b0001_0000000000000000000_110_011_100#32 = .index .r6 .r3 .r4 := by decide
theorem test_decode_amend : decode 0b0010_0000000000000000000_010_110_100#32 = .amend .r2 .r6 .r4 := by decide
theorem test_decode_add_ignores_unnamed_bits :
    decode 0b0011_1111111111111111111_000_001_010#32 = .add .r0 .r1 .r2 := by decide
theorem test_decode_mul : decode 0b0100_0000000000000000000_100_101_011#32 = .mul .r4 .r5 .r3 := by decide
theorem test_decode_div : decode 0b0101_0000000000000000000_011_001_000#32 = .div .r3 .r1 .r0 := by decide
theorem test_decode_nand : decode 0b0110_0000000000000000000_011_000_111#32 = .nand .r3 .r0 .r7 := by decide
theorem test_decode_halt : decode 0b0111_1111111111111111111111111111#32 = .halt := by decide
theorem test_decode_alloc_ignores_a : decode 0b1000_0000000000000000000_111_010_001#32 = .alloc .r2 .r1 := by decide
theorem test_decode_free_ignores_a_and_b : decode 0b1001_0000000000000000000_111_101_010#32 = .free .r2 := by decide
theorem test_decode_out_ignores_a_and_b : decode 0b1010_0000000000000000000_111_101_110#32 = .out .r6 := by decide
theorem test_decode_in_ignores_a_and_b : decode 0b1011_0000000000000000000_111_101_001#32 = .inp .r1 := by decide
theorem test_decode_loadprog_ignores_a :
    decode 0b1100_0000000000000000000_111_010_101#32 = .loadprog .r2 .r5 := by decide
theorem test_decode_li : decode 0b1101_110_1000000000000000000000001#32 = .li .r6 0x1000001#25 := by decide
theorem test_decode_haltUndef_14 : decode 0b1110_0000000000000000000000000000#32 = .haltUndef 14#4 := by decide
theorem test_decode_haltUndef_15 : decode 0xF1234567#32 = .haltUndef 15#4 := by decide

/-- The immediate's field and the register's: L1.3. -/
theorem test_decode_li_fields : decode 0xD1ABCDEF#32 = .li .r0 0x1ABCDEF#25 := by decide

/-- The first byte of a Word is the most significant (T64), and a part of a Word is no instruction. -/
theorem test_decodeBytes_big_endian :
    decodeBytes [0xD2#8, 0x00#8, 0x00#8, 0x01#8, 0xFF#8] = .ok (.li .r1 1#25, [0xFF#8]) := by decide
theorem test_decodeBytes_refuses_part_of_word : decodeBytes [0xD2#8, 0x00#8, 0x00#8] = .error .truncated := by decide

/-- The host's numbering of bits is the Word's own. -/
theorem test_decodeTableWord_add : decodeTableWord 32 0x30000053 = some (.add .r1 .r2 .r3) := by decide
theorem test_decodeTableWord_halt : decodeTableWord 32 0xE0000000 = some (.haltUndef 14#4) := by decide

/-! ### One step of each instruction -/

theorem test_T3_cmov_any_nonzero_condition :
    after (vector 0x00000053#32 9#32 5#32 0x80000000#32) (fun t => (t.reg .r1, t.pc, t.run)) =
      some (5#32, 1#32, .running) := by decide
theorem test_T2_cmov_not_taken :
    after (vector 0x00000053#32 9#32 5#32 0#32) (fun t => (t.reg .r1, t.pc)) = some (9#32, 1#32) := by decide
theorem test_T5_index_in_bounds :
    after (vectorWith 0x10000053#32 [0#32, 0xDEADBEEF#32] 0#32 1#32 1#32) (fun t => t.reg .r1) = some 0xDEADBEEF#32 := by
  decide
theorem test_T8_index_at_length :
    after (vectorWith 0x10000053#32 [0#32, 0#32] 9#32 1#32 2#32) (fun t => (t.reg .r1, t.pc, t.run)) =
      some (9#32, 1#32, .aborted .indexOutOfBounds) := by decide
theorem test_T11_amend_in_bounds :
    after (vectorWith 0x20000053#32 [0#32, 0#32] 1#32 0#32 0xCAFE#32) (fun t => (t.word? 1 0, t.word? 1 1)) =
      some (some 0xCAFE#32, some 0#32) := by decide
theorem test_T13_amend_absent :
    after (vector 0x20000053#32 3#32 0#32 1#32) (fun t => (t.bank.length, t.run)) =
      some (1, .aborted .amendNotFound) := by decide
theorem test_T15_add_wraps :
    after (vector 0x30000053#32 0x12345678#32 0xFFFFFFFF#32 1#32) (fun t => t.reg .r1) = some 0#32 := by decide
theorem test_T17_add_same_register :
    after (vector 0x30000049#32 0x80000001#32 0#32 0#32) (fun t => t.reg .r1) = some 2#32 := by decide
theorem test_T18_mul_wraps :
    after (vector 0x40000053#32 0#32 0xFFFFFFFF#32 2#32) (fun t => t.reg .r1) = some 0xFFFFFFFE#32 := by decide
theorem test_T20_mul_max :
    after (vector 0x40000053#32 0#32 0xFFFFFFFF#32 0xFFFFFFFF#32) (fun t => t.reg .r1) = some 1#32 := by decide
theorem test_T22_div_unsigned :
    after (vector 0x50000053#32 0#32 0xFFFFFFFF#32 2#32) (fun t => t.reg .r1) = some 0x7FFFFFFF#32 := by decide
theorem test_T26_div_zero_by_zero :
    after (vector 0x50000053#32 9#32 0#32 0#32) (fun t => (t.reg .r1, t.pc, t.run)) =
      some (9#32, 1#32, .aborted .divisionByZero) := by decide
theorem test_T29_nand_pattern :
    after (vector 0x60000053#32 0#32 0xF0F0F0F0#32 0xFF00FF00#32) (fun t => t.reg .r1) = some 0x0FFF0FFF#32 := by decide
theorem test_T28_nand_max :
    after (vector 0x60000053#32 5#32 0xFFFFFFFF#32 0xFFFFFFFF#32) (fun t => t.reg .r1) = some 0#32 := by decide
theorem test_T31_halt :
    after (vector 0x7FFFFFFF#32 0#32 0#32 0#32) (fun t => (t.pc, t.run)) = some (1#32, .halted) := by decide
theorem test_T33_haltUndef :
    after (vector 0xF1234567#32 0#32 0#32 0#32) (fun t => (t.pc, t.run)) = some (1#32, .halted) := by decide
theorem test_T37_alloc :
    after (vector 0x8000000A#32 0#32 3#32 0#32) (fun t => (t.reg .r1, t.len? 1, t.word? 1 2, t.next)) =
      some (1#32, some 3, some 0#32, 2) := by decide
theorem test_T39_alloc_same_register :
    after (vector 0x80000012#32 0#32 2#32 0#32) (fun t => (t.reg .r2, t.len? 1)) = some (1#32, some 2) := by decide
theorem test_T40_free_below_next :
    after (vectorWith 0x90000001#32 [0#32] 1#32 0#32 0#32) (fun t => (t.len? 1, t.pool, t.next)) =
      some (none, [2], 1) := by decide
theorem test_T42_free_zero :
    after (vector 0x90000001#32 0#32 0#32 0#32) (fun t => (t.len? 0, t.run)) = some (some 2, .aborted .freeZero) := by
  decide
theorem test_T47_out_255 :
    after (vector 0xA0000001#32 255#32 0#32 0#32) (fun t => (t.trace, t.run)) = some ([.out 0xFF#8], .running) := by
  decide
theorem test_T48_out_256 :
    after (vector 0xA0000001#32 256#32 0#32 0#32) (fun t => (t.trace, t.run)) =
      some ([], .aborted .outputOutOfRange) := by decide
theorem test_T54_in_awaiting :
    after (vector 0xB0000001#32 7#32 0#32 0#32) (fun t => (t.reg .r1, t.pc, t.run, t.trace)) =
      some (7#32, 1#32, .awaitInput .r1, [.flush, .inReq]) := by decide
theorem test_T53_in_dedicated_sink :
    after { vector 0xB0000001#32 7#32 0#32 0#32 with dedicatedSink := true } (fun t => t.trace) = some [.inReq] := by
  decide
theorem test_T56_loadprog_copies_and_jumps :
    after (vectorWith 0xC000000A#32 [0x70000000#32] 1#32 0#32 0#32) (fun t => (t.len? 0, t.word? 0 0, t.pc)) =
      some (some 1, some 0x70000000#32, 0#32) := by decide
theorem test_T58_loadprog_absent :
    after (vector 0xC000000A#32 6#32 0#32 0#32) (fun t => (t.len? 0, t.pc, t.run)) =
      some (some 2, 1#32, .aborted .loadNotFound) := by decide
theorem test_T61_li_largest :
    after (vector 0xDFFFFFFF#32 0#32 0#32 0#32) (fun t => t.reg .r7) = some 0x01FFFFFF#32 := by decide
theorem test_L1_3_li :
    after (vector 0xD1ABCDEF#32 0#32 0#32 0#32) (fun t => t.reg .r0) = some 0x01ABCDEF#32 := by decide

/-! ### The answer of the host, fetch faults, the allocator's sequences, boot -/

/-- T51 and T52: 0xFF is not the sentinel, and the end of the stream is. -/
theorem test_T51_in_answer_byte :
    after { vector 0xB0000001#32 7#32 0#32 0#32 with run := .awaitInput .r1, hostAnswers := [.byte 0xFF#8] }
      (fun t => (t.reg .r1, t.run, t.trace)) = some (0xFF#32, .running, [.answer (.byte 0xFF#8)]) := by decide
theorem test_T52_in_answer_end :
    after { vector 0xB0000001#32 7#32 0#32 0#32 with run := .awaitInput .r1, hostAnswers := [.endOfStream] }
      (fun t => t.reg .r1) = some 0xFFFFFFFF#32 := by decide
theorem test_T35_empty_image :
    after State.reset (fun t => (t.pc, t.run)) = some (0#32, .aborted .fetchOutOfBounds) := by decide
theorem test_T59_fetch_far_beyond_the_end :
    after { vector 0xC0000001#32 0#32 0#32 0#32 with pc := 0xFFFFFFFF#32 } (fun t => (t.pc, t.run)) =
      some (0xFFFFFFFF#32, .aborted .fetchOutOfBounds) := by decide

/-- T41 and L1.5: what freeing and handing out do to the pool. -/
theorem test_T41_free_above_next : giveBack [4] 1 3 = ([3, 4], 1) := by decide
theorem test_L1_5_second_case : giveBack (giveBack [] 6 4).1 (giveBack [] 6 4).2 2 = ([4, 6], 2) := by decide
theorem test_L1_5_refill : refill [] [4, 6] 2 = ([6], 4) := by decide

theorem test_T63_boot :
    (boot [0xD0#8, 0#8, 0#8, 0x48#8, 0xA0#8, 0#8, 0#8, 0#8, 0x70#8, 0#8, 0#8, 0#8] false).map
      (fun s => (s.bank, s.pc, s.next)) =
      .ok ([(0, ⟨3, [(0, 0xD0000048#32), (1, 0xA0000000#32), (2, 0x70000000#32)]⟩)], 0#32, 1) := by decide
theorem test_T65_boot_rejects_five_bytes : boot [0x70#8, 0#8, 0#8, 0#8, 0#8] false = .error .partialWord := by decide

/-- The run of the empty image ends in its first step (T66); that the run has ended shows with one more unit of fuel. -/
theorem test_T66_run_of_the_empty_image :
    runFor (fun _ => none) 5 State.reset = .stopped (State.reset.setRun (.aborted .fetchOutOfBounds)) (.aborted .fetchOutOfBounds) ∧
      runFor (fun _ => none) 1 State.reset = .outOfFuel (State.reset.setRun (.aborted .fetchOutOfBounds)) := by decide

/-- The host's probe: reset with a table word placed runs that word. -/
theorem test_withFetchWord :
    after (State.reset.withFetchWord 32 0xD2000005) (fun t => (t.reg .r1, t.pc)) = some (5#32, 1#32) := by decide

/-- An array that is all zeros again lists nothing: equal banks are equal data. -/
theorem test_zero_word_is_not_listed :
    (BankArray.ofWords [1#32, 0#32]).setWord 0 0#32 = BankArray.zeros 2 := by decide

/-! ### Witnesses: concrete states and operands that meet the hypotheses of the statements, clause by clause -/

/-- Every opcode value the second halt row admits, and one instruction of another row. -/
theorem witness_EncodingsInvertDecoding :
    WellFormed (.haltUndef 14#4) = true ∧ WellFormed (.haltUndef 15#4) = true ∧ WellFormed (.li .r7 0x1FFFFFF#25) = true := by
  decide

/-- The first and the last ignored bit of each clause. -/
theorem witness_IgnoredBitsHaveNoEffect :
    IgnoredBit 6 9 ∧ IgnoredBit 0 27 ∧ IgnoredBit 8 6 ∧ IgnoredBit 12 27 ∧ IgnoredBit 9 3 ∧ IgnoredBit 11 27 ∧
      IgnoredBit 7 0 ∧ IgnoredBit 15 27 := by
  simp [IgnoredBit]

/-- A Running state with `add r1, r2, r3` at `pc`. -/
theorem witness_StepRunsTheFetchedInstruction :
    (vector 0x30000053#32 0#32 1#32 2#32).run = .running ∧
      (vector 0x30000053#32 0#32 1#32 2#32).word? 0 (vector 0x30000053#32 0#32 1#32 2#32).pc.toNat = some 0x30000053#32 ∧
      decode 0x30000053#32 = .add .r1 .r2 .r3 := by decide

/-- `pc` at the length of array 0, and the largest `pc`. -/
theorem witness_FetchPastTheEndAborts :
    State.reset.run = .running ∧ State.reset.len? 0 = some 0 ∧ 0 ≤ State.reset.pc.toNat ∧
      ({ vector 0x30000053#32 0#32 0#32 0#32 with pc := 0xFFFFFFFF#32 } : State).len? 0 = some 2 ∧
      2 ≤ (0xFFFFFFFF#32 : Word).toNat := by decide

/-- Both final run states. -/
theorem witness_FinalStatesHaveNoStep :
    (State.reset.setRun .halted).run = .halted ∧
      (State.reset.setRun (.aborted .freeZero)).run = .aborted .freeZero := by decide

/-- A state without other arrays has the invariant. -/
theorem machineInv_vector (w x1 x2 x3 : Word) : MachineInv (vector w x1 x2 x3) := by
  have hb : (vector w x1 x2 x3).bank = [(0, BankArray.ofWords [w, 0x70000000#32])] := rfl
  have hp : ∀ id, Memory.present (vector w x1 x2 x3).bank id = true ↔ id < 1 := fun id => by
    rw [hb]
    by_cases h : id = 0
    · simp [Memory.present, Memory.find, h]
    · have h0 : ¬ 0 = id := fun e => h e.symm
      simp only [Memory.present, Memory.find, lookupKey, if_neg h0, Option.isSome_none, Bool.false_eq_true, false_iff]
      omega
  have hn : (vector w x1 x2 x3).next = 1 := rfl
  refine ⟨?_, (hp 0).2 (by decide), AllocatorInv.of_dense (by rw [hn]) (by rw [hn]; decide) rfl hp, rfl⟩
  rw [hb]
  by_cases h : w = 0#32 <;>
    simp [h, Memory.wf, keysRiseBelow, BankArray.wf, BankArray.ofWords, cellsFrom, Config.wordLimit]

/-- A Running state with the invariant, and the same state waiting. -/
theorem witness_UnendedRunAlwaysSteps :
    MachineInv (vector 0xB0000001#32 0#32 0#32 0#32) ∧ (vector 0xB0000001#32 0#32 0#32 0#32).run = .running ∧
      MachineInv ((vector 0xB0000001#32 0#32 0#32 0#32).setRun (.awaitInput .r1)) ∧
      ((vector 0xB0000001#32 0#32 0#32 0#32).setRun (.awaitInput .r1)).run = .awaitInput .r1 := by
  have h := machineInv_vector 0xB0000001#32 0#32 0#32 0#32
  have ha := h.allocator
  exact ⟨h, rfl, ⟨h.1, h.2, ⟨ha.1, ha.2, ha.3, ha.4, ha.5, ha.6⟩, h.4⟩, rfl⟩

/-- Both cases of the condition: the sign bit alone, and zero. -/
theorem witness_ConditionalMove :
    (vector 0#32 9#32 5#32 0x80000000#32).reg .r3 ≠ 0#32 ∧ (vector 0#32 9#32 5#32 0#32).reg .r3 = 0#32 := by decide

/-- The last Word of an array, an absent identifier, and the offset at the length. -/
theorem witness_ArrayIndex :
    (vectorWith 0#32 [0#32, 7#32] 0#32 1#32 1#32).word? 1 1 = some 7#32 ∧
      (vectorWith 0#32 [0#32, 7#32] 0#32 2#32 0#32).len? 2 = none ∧
      (vectorWith 0#32 [0#32, 7#32] 0#32 1#32 2#32).len? 1 = some 2 ∧ 2 ≤ (2#32 : Word).toNat := by decide

/-- The same three cases for a write. -/
theorem witness_ArrayAmend :
    (vectorWith 0#32 [0#32, 7#32] 1#32 1#32 0#32).len? ((vectorWith 0#32 [0#32, 7#32] 1#32 1#32 0#32).reg .r1).toNat = some 2 ∧
      ((vectorWith 0#32 [0#32, 7#32] 1#32 1#32 0#32).reg .r2).toNat < 2 ∧
      (vectorWith 0#32 [0#32, 7#32] 2#32 0#32 0#32).len? 2 = none ∧
      2 ≤ ((vectorWith 0#32 [0#32, 7#32] 1#32 2#32 0#32).reg .r2).toNat := by decide

/-- Divisors 1 and 0. -/
theorem witness_DivisionTruncates :
    (vector 0#32 0#32 7#32 1#32).reg .r3 ≠ 0#32 ∧ (vector 0#32 0#32 7#32 0#32).reg .r3 = 0#32 := by decide

/-- An empty pool, a pool of two identifiers, and the last identifier as next-candidate. -/
theorem witness_AllocationTakesTheNextCandidate :
    (vector 0#32 0#32 3#32 0#32).next < 2 ^ 32 ∧ (vector 0#32 0#32 3#32 0#32).storageGrants ≠ some 0 ∧
      (vector 0#32 0#32 3#32 0#32).pool = [] ∧ ([4, 6] : List Nat).Pairwise (· < ·) ∧
      ({ vector 0#32 0#32 3#32 0#32 with pool := [4, 6], next := 2 } : State).pool ≠ [] ∧
      ({ vector 0#32 0#32 3#32 0#32 with next := 4294967295 } : State).next < 2 ^ 32 := by decide

/-- No identifier left, and no storage left. -/
theorem witness_AllocationCanExhaust :
    ({ vector 0#32 0#32 3#32 0#32 with next := 4294967296 } : State).next = 2 ^ 32 ∧
      ({ vector 0#32 0#32 3#32 0#32 with storageGrants := some 0 } : State).storageGrants = some 0 := by decide

/-- A present identifier below the next-candidate, one above it, identifier 0, and an absent one. -/
theorem witness_DeallocationGivesBack :
    (vectorWith 0#32 [7#32] 1#32 0#32 0#32).reg .r1 ≠ 0#32 ∧ (vectorWith 0#32 [7#32] 1#32 0#32 0#32).len? 1 ≠ none ∧
      (start [(0, ⟨2, []⟩), (2, ⟨1, []⟩)] 1 2#32 0#32 0#32).len? 2 ≠ none ∧
      (vectorWith 0#32 [7#32] 0#32 0#32 0#32).reg .r1 = 0#32 ∧
      (vectorWith 0#32 [7#32] 2#32 0#32 0#32).len? 2 = none := by decide

/-- An allocation that completes from a state with the invariant. -/
theorem witness_AllocationReturnsTheSmallestUnused :
    MachineInv (vector 0#32 0#32 3#32 0#32) ∧ (vector 0#32 0#32 3#32 0#32).run = .running ∧
      (nextOf (exec (.alloc .r1 .r2) (vector 0#32 0#32 3#32 0#32))).map State.run = some .running :=
  ⟨machineInv_vector _ _ _ _, rfl, by decide⟩

/-- An allocation, its deallocation and a second allocation that all complete. -/
theorem witness_FreedIdentifierIsReusedFirst :
    MachineInv (vector 0#32 0#32 3#32 0#32) ∧ (vector 0#32 0#32 3#32 0#32).run = .running ∧
      ∃ t u v, exec (.alloc .r1 .r2) (vector 0#32 0#32 3#32 0#32) = .next t ∧ t.run = .running ∧
        exec (.free .r1) t = .next u ∧ exec (.alloc .r3 .r2) u = .next v ∧ v.run = .running :=
  ⟨machineInv_vector _ _ _ _, rfl, _, _, _, rfl, rfl, rfl, rfl, rfl⟩

/-- A deallocation that completes. -/
theorem witness_StaleIdentifierAborts :
    (nextOf (exec (.free .r1) (vectorWith 0#32 [7#32] 1#32 0#32 0#32))).map State.run = some .running := by decide

/-- An empty array under an identifier that a register holds. -/
theorem witness_EmptyArrayAccessAborts : (vectorWith 0#32 [] 1#32 1#32 0#32).len? 1 = some 0 := by decide

/-- The largest byte, and the value after it. -/
theorem witness_OutputEmitsOneByte :
    ((vector 0#32 255#32 0#32 0#32).reg .r1).toNat ≤ 255 ∧ 255 < ((vector 0#32 256#32 0#32 0#32).reg .r1).toNat := by
  decide

/-- Both sink configurations. -/
theorem witness_InputRequestsAByte :
    (vector 0#32 0#32 0#32 0#32).dedicatedSink = false ∧
      ({ vector 0#32 0#32 0#32 0#32 with dedicatedSink := true } : State).dedicatedSink = true := by decide

/-- A wait with an answer of each kind ready. -/
theorem witness_AnswerCompletesInput :
    ({ vector 0#32 0#32 0#32 0#32 with run := .awaitInput .r1, hostAnswers := [.byte 0xFF#8, .endOfStream] } : State).run =
        .awaitInput .r1 ∧
      ({ vector 0#32 0#32 0#32 0#32 with run := .awaitInput .r1, hostAnswers := [.byte 0xFF#8, .endOfStream] } : State).hostAnswers =
        .byte 0xFF#8 :: [.endOfStream] ∧
      ({ vector 0#32 0#32 0#32 0#32 with run := .awaitInput .r1, hostAnswers := [.endOfStream] } : State).hostAnswers =
        .endOfStream :: [] := by decide

/-- A host with an answer of each kind ready. -/
theorem witness_InputReadsTheAnswer :
    ({ vector 0#32 0#32 0#32 0#32 with hostAnswers := [.byte 0xFF#8, .endOfStream] } : State).hostAnswers =
        .byte 0xFF#8 :: [.endOfStream] ∧
      ({ vector 0#32 0#32 0#32 0#32 with hostAnswers := [.endOfStream], dedicatedSink := true } : State).hostAnswers =
        .endOfStream :: [] := by decide

/-- A wait with no answer ready. -/
theorem witness_WaitWithoutAnswerChangesNothing :
    ((vector 0#32 0#32 0#32 0#32).setRun (.awaitInput .r1)).run = .awaitInput .r1 ∧
      ((vector 0#32 0#32 0#32 0#32).setRun (.awaitInput .r1)).hostAnswers = [] := by decide

/-- Steps that add events: an Output's, and the answer's to a wait; and a step after which the core waits. -/
theorem witness_OnlyOutputAndInputMeetTheHost :
    after (vector 0xA0000001#32 65#32 0#32 0#32) State.trace = some ([] ++ [.out 0x41#8]) ∧
      after { vector 0#32 0#32 0#32 0#32 with run := .awaitInput .r1, hostAnswers := [.endOfStream] } State.trace =
        some ([] ++ [.answer .endOfStream]) ∧
      after (vector 0xB0000001#32 0#32 0#32 0#32) State.run = some (.awaitInput .r1) := by decide

/-- A step with each sink configuration. -/
theorem witness_SinkConfigurationIsFixed :
    after (vector 0xB0000001#32 0#32 0#32 0#32) State.dedicatedSink = some false ∧
      after { vector 0xB0000001#32 0#32 0#32 0#32 with dedicatedSink := true } State.dedicatedSink = some true := by decide

/-- Two states that differ in the sink configuration and by a flush: both step; and both stopped. -/
theorem witness_SinkConfigurationShowsOnlyAsFlushes :
    SameButFlushes { vector 0xB0000001#32 0#32 0#32 0#32 with trace := [.flush] }
        { vector 0xB0000001#32 0#32 0#32 0#32 with dedicatedSink := true } ∧
      after { vector 0xB0000001#32 0#32 0#32 0#32 with trace := [.flush] } State.run = some (.awaitInput .r1) ∧
      SameButFlushes { (vector 0#32 0#32 0#32 0#32).setRun .halted with trace := [.flush] }
        ((vector 0#32 0#32 0#32 0#32).setRun .halted) ∧
      step { (vector 0#32 0#32 0#32 0#32).setRun .halted with trace := [.flush] } = .fault .halted :=
  ⟨⟨rfl, rfl⟩, by decide, ⟨rfl, rfl⟩, rfl⟩

/-- The jump, the copy, the absent source, and storage refused. -/
theorem witness_LoadProgramReplacesAndJumps :
    (vector 0#32 0#32 1#32 0#32).reg .r1 = 0#32 ∧ (vectorWith 0#32 [7#32] 1#32 0#32 0#32).reg .r1 ≠ 0#32 ∧
      (vectorWith 0#32 [7#32] 1#32 0#32 0#32).len? 1 = some 1 ∧
      (vectorWith 0#32 [7#32] 1#32 0#32 0#32).storageGrants ≠ some 0 ∧
      (vectorWith 0#32 [7#32] 2#32 0#32 0#32).len? 2 = none ∧
      ({ vectorWith 0#32 [7#32] 1#32 0#32 0#32 with storageGrants := some 0 } : State).storageGrants = some 0 := by decide

/-- A program that was loaded, with the target inside it and with the target at its end. -/
theorem witness_LoadedProgramRunsNext :
    (vectorWith 0#32 [7#32] 1#32 0#32 1#32).run = .running ∧ (vectorWith 0#32 [7#32] 1#32 0#32 1#32).reg .r1 ≠ 0#32 ∧
      (vectorWith 0#32 [7#32] 1#32 0#32 1#32).len? 1 = some 1 ∧
      (vectorWith 0#32 [7#32] 1#32 0#32 1#32).word? 1 0 = some 7#32 ∧
      (nextOf (exec (.loadprog .r1 .r2) (vectorWith 0#32 [7#32] 1#32 0#32 1#32))).map State.run = some .running ∧
      (nextOf (exec (.loadprog .r1 .r3) (vectorWith 0#32 [7#32] 1#32 0#32 1#32))).map State.run = some .running ∧
      1 ≤ ((vectorWith 0#32 [7#32] 1#32 0#32 1#32).reg .r3).toNat := by decide

/-- A copy, then a write to the source array, and a write to the program. -/
theorem witness_ProgramCopyIsDeep :
    (vectorWith 0#32 [7#32] 1#32 0#32 5#32).reg .r1 ≠ 0#32 ∧
      ∃ t u u', exec (.loadprog .r1 .r2) (vectorWith 0#32 [7#32] 1#32 0#32 5#32) = .next t ∧
        exec (.amend .r1 .r2 .r3) t = .next u ∧ t.reg .r1 = (vectorWith 0#32 [7#32] 1#32 0#32 5#32).reg .r1 ∧
        u.word? 1 0 = some 5#32 ∧ exec (.amend .r2 .r2 .r3) t = .next u' ∧ t.reg .r2 = 0#32 ∧ u'.word? 0 0 = some 5#32 :=
  ⟨by decide, _, _, _, rfl, rfl, rfl, by decide, rfl, rfl, by decide⟩

/-- A write that completes. -/
theorem witness_AmendedWordIsReadBack :
    (vectorWith 0#32 [7#32] 1#32 0#32 5#32).run = .running ∧
      (nextOf (exec (.amend .r1 .r2 .r3) (vectorWith 0#32 [7#32] 1#32 0#32 5#32))).map State.run = some .running := by
  decide

/-- A write to array 0 at `pc` that completes. -/
theorem witness_SelfModificationIsSeenByTheNextFetch :
    (vector 0#32 0#32 0#32 0x70000000#32).run = .running ∧ (vector 0#32 0#32 0#32 0x70000000#32).reg .r1 = 0#32 ∧
      (vector 0#32 0#32 0#32 0x70000000#32).reg .r2 = (vector 0#32 0#32 0#32 0x70000000#32).pc ∧
      (nextOf (exec (.amend .r1 .r2 .r3) (vector 0#32 0#32 0#32 0x70000000#32))).map State.run = some .running := by decide

/-- A step from a state with the invariant after which the program is present with the length it had. -/
theorem witness_ArrayLengthsAreFixed :
    MachineInv (vector 0x20000053#32 0#32 1#32 5#32) ∧ (vector 0x20000053#32 0#32 1#32 5#32).len? 0 = some 2 ∧
      after (vector 0x20000053#32 0#32 1#32 5#32) (fun t => t.len? 0) = some (some 2) :=
  ⟨machineInv_vector _ _ _ _, rfl, by decide⟩

/-- A step that creates identifier 1, and one that destroys it. -/
theorem witness_OnlyAllocationCreatesAndOnlyFreeDestroys :
    (vector 0x8000000A#32 0#32 3#32 0#32).len? 1 = none ∧
      after (vector 0x8000000A#32 0#32 3#32 0#32) (fun t => t.len? 1) = some (some 3) ∧
      (vectorWith 0x90000001#32 [0#32] 1#32 0#32 0#32).len? 1 ≠ none ∧
      after (vectorWith 0x90000001#32 [0#32] 1#32 0#32 0#32) (fun t => t.len? 1) = some none := by decide

/-- A fetched word that is no Load Program. -/
theorem witness_OnlyLoadProgramWritesPc :
    Fetches (vector 0x30000053#32 0#32 1#32 2#32) 0x30000053#32 ∧ (∀ b c, decode 0x30000053#32 ≠ .loadprog b c) ∧
      after (vector 0x30000053#32 0#32 1#32 2#32) State.pc = some 1#32 := by
  have h : decode 0x30000053#32 = .add .r1 .r2 .r3 := by decide
  exact ⟨⟨rfl, by decide⟩, fun b c => by simp [h], by decide⟩

/-- A state with the invariant and a Word at `pc`. -/
theorem witness_InstructionPointerNeverWraps :
    MachineInv (vector 0x30000053#32 0#32 1#32 2#32) ∧ Fetches (vector 0x30000053#32 0#32 1#32 2#32) 0x30000053#32 :=
  ⟨machineInv_vector _ _ _ _, rfl, by decide⟩

/-- A step that aborts in its instruction, and one that aborts in its fetch. -/
theorem witness_FaultsArePrecise :
    after (vector 0x50000053#32 9#32 7#32 0#32) State.run = some (.aborted .divisionByZero) ∧
      after State.reset State.run = some (.aborted .fetchOutOfBounds) := by decide

/-- The same two, for the offset of the faulting instruction. -/
theorem witness_FaultingInstructionIsFound :
    after (vector 0x50000053#32 9#32 7#32 0#32) (fun t => (t.run, t.faultOffset)) =
        some (.aborted .divisionByZero, some 0#32) ∧
      after State.reset (fun t => (t.run, t.faultOffset)) = some (.aborted .fetchOutOfBounds, some 0#32) := by decide

/-- Two equal codes. -/
theorem witness_ReasonCodesAreTheTables : FatalReason.fetchOutOfBounds.code = FatalReason.fetchOutOfBounds.code := rfl

/-- An image of one Word, with its Word 0 and a register other than the first. -/
theorem witness_BootGivesTheResetValues :
    boot [0x12#8, 0x34#8, 0x56#8, 0x78#8] true = .ok (bootState [0x12345678#32] true) ∧
      0 < [0x12#8, 0x34#8, 0x56#8, 0x78#8].length / 4 ∧ (1 : Nat) ≠ 0 := by
  exact ⟨rfl, by decide, by decide⟩

/-- The same boot, to standard output. -/
theorem witness_InvariantHoldsAfterBoot :
    boot [0x12#8, 0x34#8, 0x56#8, 0x78#8] false = .ok (bootState [0x12345678#32] false) := rfl

/-- A step from a state with the invariant. -/
theorem witness_StepKeepsTheInvariant :
    MachineInv (vector 0x8000000A#32 0#32 3#32 0#32) ∧
      (nextOf (step (vector 0x8000000A#32 0#32 3#32 0#32))).isSome = true :=
  ⟨machineInv_vector _ _ _ _, by decide⟩

/-- A booted program and the state after its first step are reached. -/
theorem witness_ProgramIsAlwaysPresent :
    Reachable (bootState [0x8000000A#32] false) ∧
      ∃ t, Reachable t ∧ t.len? 1 = some 0 ∧ t.next = 2 := by
  have h := Reachable.boot [0x80#8, 0#8, 0#8, 0x0A#8] false [] none (bootState [0x8000000A#32] false) rfl
  exact ⟨h, _, .step _ _ h rfl, by decide, by decide⟩

/-- A reached state with a next-candidate, and an identifier below it. -/
theorem witness_NextCandidateIsTheSmallestUnused :
    ∃ t, Reachable t ∧ 1 < t.next ∧ t.next < 2 ^ 32 := by
  have h := Reachable.boot [0x80#8, 0#8, 0#8, 0x0A#8] false [] none (bootState [0x8000000A#32] false) rfl
  exact ⟨_, .step _ _ h rfl, by decide, by decide⟩

/-- A bank of two arrays, for which clause 2 of R132 and the model's invariant hold, and a Deallocation that completes. -/
theorem witness_FreeKeepsTheUnusedSetAsWritten :
    MachineInv (vectorWith 0#32 [] 1#32 0#32 0#32) ∧ UnusedSetAsWritten (vectorWith 0#32 [] 1#32 0#32 0#32) ∧
      (vectorWith 0#32 [] 1#32 0#32 0#32).run = .running ∧
      (nextOf (exec (.free .r1) (vectorWith 0#32 [] 1#32 0#32 0#32))).map State.run = some .running := by
  have hp : ∀ id, Memory.present (vectorWith 0#32 [] 1#32 0#32 0#32).bank id = true ↔ id < 2 := fun id => by
    have hb : (vectorWith 0#32 [] 1#32 0#32 0#32).bank =
      [(0, BankArray.ofWords [0#32, 0x70000000#32]), (1, BankArray.ofWords [])] := rfl
    rw [hb]
    by_cases h0 : 0 = id
    · simp [Memory.present, Memory.find, ← h0]
    · by_cases h1 : 1 = id
      · simp [Memory.present, Memory.find, ← h1]
      · simp only [Memory.present, Memory.find, lookupKey, if_neg h0, if_neg h1, Option.isSome_none, Bool.false_eq_true,
          false_iff]
        omega
  refine ⟨⟨by decide, by decide, AllocatorInv.of_dense (by decide) (by decide) rfl hp, rfl⟩, fun j h1 _ => ?_, rfl,
    by decide⟩
  rw [State.len?_eq_none_iff, ← Memory.present_eq_false_iff, ← Bool.not_eq_true, hp]
  have ht : (vectorWith 0#32 [] 1#32 0#32 0#32).poolTop = 2 := rfl
  have hn : (vectorWith 0#32 [] 1#32 0#32 0#32).next = 2 := rfl
  have hq : (vectorWith 0#32 [] 1#32 0#32 0#32).pool = [] := rfl
  rw [ht, hn, hq]
  simp only [List.not_mem_nil, false_or]
  omega

/-- A state with the invariant. -/
theorem witness_RunHasExactlyOneObservation : MachineInv (vector 0x70000000#32 0#32 0#32 0#32) :=
  machineInv_vector _ _ _ _

/-- `loadprog r0, r0` at offset 0, with an event in the trace, which the observation keeps. -/
theorem witness_JumpToItselfHasNoEnd :
    Fetches { vector 0xC0000000#32 0#32 0#32 0#32 with trace := [.out 0x41#8] } 0xC0000000#32 ∧
      decode 0xC0000000#32 = .loadprog .r0 .r0 ∧ (vector 0xC0000000#32 0#32 0#32 0#32).reg .r0 = 0#32 ∧
      (vector 0xC0000000#32 0#32 0#32 0#32).reg .r0 = (vector 0xC0000000#32 0#32 0#32 0#32).pc :=
  ⟨⟨rfl, by decide⟩, by decide, rfl, rfl⟩

/-- A wait with no answer ready, after its request, and a host that does not answer it. -/
theorem witness_UnansweredInputHasNoEnd :
    ({ vector 0#32 0#32 0#32 0#32 with run := .awaitInput .r1, trace := [.inReq] } : State).run = .awaitInput .r1 ∧
      ({ vector 0#32 0#32 0#32 0#32 with run := .awaitInput .r1, trace := [.inReq] } : State).hostAnswers = [] ∧
      (fun k => if k = 0 then none else some .endOfStream : HostInput)
        ({ vector 0#32 0#32 0#32 0#32 with run := .awaitInput .r1, trace := [.inReq] } : State).answersTaken = none := by
  decide

/-- The same wait, with answers of both kinds. -/
theorem witness_HostAnswersThePendingRequest :
    ({ vector 0#32 0#32 0#32 0#32 with run := .awaitInput .r1, trace := [.inReq] } : State).run = .awaitInput .r1 ∧
      ({ vector 0#32 0#32 0#32 0#32 with run := .awaitInput .r1, trace := [.inReq] } : State).hostAnswers = [] ∧
      (fun k => if k = 0 then some (.byte 0xFF#8) else some .endOfStream : HostInput)
        ({ vector 0#32 0#32 0#32 0#32 with run := .awaitInput .r1, trace := [.inReq] } : State).answersTaken =
        some (.byte 0xFF#8) ∧
      (fun _ => some .endOfStream : HostInput)
        ({ vector 0#32 0#32 0#32 0#32 with run := .awaitInput .r1, trace := [.inReq] } : State).answersTaken =
        some .endOfStream := by decide

end Sys2Proof.Machine.Tests
end

/-! ## Family 10_state.md: array 0 is always present, and the instruction pointer never wraps -/

namespace Sys2Proof.Machine

/-! ### Array 0 along a run (10_state.md R32) -/

/-- A boot that is not rejected sets the reset values around the image's Words, which array 0 can hold
(70_reset_and_hazards.md R220, R222). -/
theorem boot_eq_ok {image : List Byte} {sink : Bool} {s : State} (h : boot image sink = .ok s) :
    ∃ ws, imageWords Config.loaderTailPolicy image = .ok ws ∧ ws.length ≤ Config.maxLength ∧ s = bootState ws sink := by
  unfold boot at h
  cases hi : imageWords Config.loaderTailPolicy image with
  | error e => simp [hi] at h
  | ok ws =>
    by_cases hlen : Config.maxLength < ws.length
    · simp [hi, hlen] at h
    · simp only [hi, hlen, if_false, Except.ok.injEq] at h
      exact ⟨ws, rfl, by omega, h.symm⟩

@[simp] theorem bootState_program_present (ws : List Word) (sink : Bool) :
    Memory.present (bootState ws sink).bank 0 = true := rfl

/-- Taking an answer, or waiting for one, leaves the bank as it was. -/
@[simp] theorem awaitAnswer_bank (c : Reg) (s : State) : (awaitAnswer c s).bank = s.bank := by
  rcases awaitAnswer_cases c s with ⟨-, he⟩ | ⟨a, rest, -, he⟩ <;> rw [he]

/-- No instruction removes array 0: three kinds of effect put an array, and Deallocation, the one that deletes, refuses
identifier 0 (42_bank_management.md R140). -/
theorem Effect.keeps_program {i : Instr} {s t : State} (h : Effect i s t) (hp : Memory.present s.bank 0 = true) :
    Memory.present t.bank 0 = true := by
  cases h with
  | unchanged | register | jumped | emitted | requested | halted | aborted => exact hp
  | amended | allocated | replaced => simp [Memory.present_put, hp]
  | freed c _ h0 _ => simp [Memory.present_delete, hp, Ne.symm h0]

/-- Every step keeps array 0, from any state that has it. -/
theorem step_keeps_program {s t : State} (h : step s = .next t) (hp : Memory.present s.bank 0 = true) :
    Memory.present t.bank 0 = true := by
  rcases step_cases h with ⟨w, -, -, hexec⟩ | ⟨a, -, -, -, rfl⟩ | ⟨c, -, rfl⟩
  · exact (exec_effect hexec).keeps_program hp
  · exact hp
  · rwa [awaitAnswer_bank]

theorem Reachable.program_present {s : State} (h : Reachable s) : Memory.present s.bank 0 = true := by
  induction h with
  | boot image sink answers grants s hboot =>
    obtain ⟨ws, -, -, rfl⟩ := boot_eq_ok hboot
    exact bootState_program_present ws sink
  | step s t _ hstep ih => exact step_keeps_program hstep ih
  | answer s a _ ih => exact ih

/-- Settles O53: presence of array 0 holds after every boot and is kept by every step and by every answer of the host. -/
theorem programIsAlwaysPresent : Obligations.ProgramIsAlwaysPresent := by
  unfold Obligations.ProgramIsAlwaysPresent
  intro s hs hnone
  obtain ⟨a, ha⟩ := (Memory.present_iff s.bank 0).1 hs.program_present
  rw [State.len?_eq_none_iff, ha] at hnone
  cases hnone

/-! ### The fetch advance (10_state.md R27) -/

/-- In a bank in canonical form an address that holds a Word has an offset below the greatest length of an array
(10_state.md R31). -/
theorem State.offset_lt_maxLength {s : State} {id off : Nat} {w : Word} (hwf : Memory.wf s.bank = true)
    (h : s.word? id off = some w) : off < Config.maxLength := by
  obtain ⟨a, hfind, hoff, -⟩ := (s.word?_eq_some_iff id off w).1 h
  obtain ⟨hlen, -, -⟩ := (BankArray.wf_iff a).1 (Memory.wf_find hwf hfind).1
  exact lt_of_lt_of_le hoff (Nat.le_of_lt_succ hlen)

/-- Settles O43: a Word at `pc` is inside array 0, whose length is at most 2^32 - 1, so the advance stays below 2^32. -/
theorem instructionPointerNeverWraps : Obligations.InstructionPointerNeverWraps := by
  unfold Obligations.InstructionPointerNeverWraps
  rintro s w hinv ⟨-, hword⟩
  have hpc : s.pc.toNat < 2 ^ 32 - 1 := State.offset_lt_maxLength hinv.bank_wf hword
  exact ⟨by omega, BitVec.toNat_add_of_lt (by simp only [BitVec.toNat_ofNat]; omega)⟩

end Sys2Proof.Machine

/-! ## Family 30_encoding.md: decoding inverts the encoding functions, and reads no ignored bit -/

namespace Sys2Proof

section Encoding

open Sys2Proof.Claims

/-! ### The encoded word as a number (30_encoding.md R83) -/

@[simp] theorem toNat_selectorOfReg (r : Reg) : (selectorOfReg r).toNat = regNumber r := by
  cases r <;> rfl

/-- Fields side by side do not overlap, so the OR of R83 is addition. -/
theorem toNat_append_eq_add {m n : Nat} (x : BitVec m) (y : BitVec n) :
    (x ++ y).toNat = x.toNat * 2 ^ n + y.toNat := by
  rw [BitVec.toNat_append, ← Nat.shiftLeft_add_eq_or_of_lt y.isLt, Nat.shiftLeft_eq]

theorem toNat_encodeS (op : BitVec 4) (a b c : BitVec 3) :
    (encodeS op a b c).toNat = encSValue op.toNat a.toNat b.toNat c.toNat := by
  simp only [encodeS, encSValue, toNat_append_eq_add, BitVec.toNat_ofNat]
  omega

theorem toNat_encodeI (a : BitVec 3) (imm : BitVec 25) :
    (encodeI a imm).toNat = 13 * 2 ^ 28 + a.toNat * 2 ^ 25 + imm.toNat := by
  simp only [encodeI, toNat_append_eq_add, BitVec.toNat_ofNat]
  omega

theorem toNat_encodeH (op : BitVec 4) : (encodeH op).toNat = op.toNat * 2 ^ 28 := by
  simp only [encodeH, toNat_append_eq_add, BitVec.toNat_ofNat]
  omega

/-- Every instruction's word is the number that its encoding function gives, format by format. -/
theorem toNat_encode (i : Instr) : (encode i).toNat = encodingValue i := by
  cases i with
  | cmov | index | amend | add | mul | div | nand | alloc | free | out | inp | loadprog =>
    simp [encode, encodingValue, toNat_encodeS]
  | li a imm => simp [encode, encodingValue, toNat_encodeI]
  | halt | haltUndef op => simp [encode, encodingValue, toNat_encodeH]

/-! ### Decoding an encoded word -/

theorem wellFormed_haltUndef_iff (op : BitVec 4) : WellFormed (.haltUndef op) = true ↔ op = 14#4 ∨ op = 15#4 := by
  simp [WellFormed]

/-- The opcode selects the row and each operand is read back from its field. Only the second halt row needs
well-formedness: another opcode value in its operand would select another row (R79). -/
theorem decode_encode {i : Instr} (h : WellFormed i = true) : decode (encode i) = i := by
  cases i with
  | cmov | index | amend | add | mul | div | nand | alloc | free | out | inp | loadprog => simp [encode, decode]
  | li a imm => simp [encode, decode]
  | halt => simp [encode, decode]
  | haltUndef op =>
    rcases (wellFormed_haltUndef_iff op).1 h with rfl | rfl <;> simp [encode, decode]

/-- Settles O1: the encoded number format by format, and the fields of the encoded word read back. -/
theorem encodingsInvertDecoding : Obligations.EncodingsInvertDecoding := by
  unfold Obligations.EncodingsInvertDecoding
  exact fun i h => ⟨toNat_encode i, decode_encode h⟩

/-! ### The bits that decoding reads (30_encoding.md R74, R76) -/

/-- The decoder reads the opcode, and of the operand fields only those that R72 and R74 give the opcode. -/
theorem decode_congr {w w' : Word} (hop : opcodeField w' = opcodeField w)
    (hA : (opcodeField w).toNat ≤ 6 → fieldA w' = fieldA w)
    (hB : (opcodeField w).toNat ≤ 6 ∨ (opcodeField w).toNat = 8 ∨ (opcodeField w).toNat = 12 → fieldB w' = fieldB w)
    (hC : (opcodeField w).toNat ≤ 12 → (opcodeField w).toNat ≠ 7 → fieldC w' = fieldC w)
    (hI : (opcodeField w).toNat = 13 → fieldA' w' = fieldA' w ∧ fieldImm w' = fieldImm w) :
    decode w' = decode w := by
  unfold decode
  rw [hop]
  split <;> simp_all

/-- Flipping a bit outside a field leaves the field as it was. -/
theorem extractLsb'_flipBit {w : Word} {bit start len : Nat} (h : bit < start ∨ start + len ≤ bit) :
    (w ^^^ BitVec.twoPow 32 bit).extractLsb' start len = w.extractLsb' start len := by
  refine BitVec.eq_of_getLsbD_eq fun i hi => ?_
  have hne : bit ≠ start + i := by omega
  simp [BitVec.getLsbD_twoPow, hne]

theorem opcodeField_flipBit {w : Word} {bit : Nat} (h : bit ≤ 27) :
    opcodeField (w ^^^ BitVec.twoPow 32 bit) = opcodeField w :=
  extractLsb'_flipBit (.inl (by omega))

theorem fieldA_flipBit {w : Word} {bit : Nat} (h : 9 ≤ bit) : fieldA (w ^^^ BitVec.twoPow 32 bit) = fieldA w :=
  congrArg regOfSelector (extractLsb'_flipBit (.inr h))

theorem fieldB_flipBit {w : Word} {bit : Nat} (h : 6 ≤ bit) : fieldB (w ^^^ BitVec.twoPow 32 bit) = fieldB w :=
  congrArg regOfSelector (extractLsb'_flipBit (.inr h))

theorem fieldC_flipBit {w : Word} {bit : Nat} (h : 3 ≤ bit) : fieldC (w ^^^ BitVec.twoPow 32 bit) = fieldC w :=
  congrArg regOfSelector (extractLsb'_flipBit (.inr h))

/-- Where R76's ignored bits lie: below the opcode, above every field the opcode uses, and nowhere for opcode 13. -/
theorem ignoredBit_bounds {op bit : Nat} (h : IgnoredBit op bit) :
    bit ≤ 27 ∧ (op ≤ 6 → 9 ≤ bit) ∧ (op ≤ 6 ∨ op = 8 ∨ op = 12 → 6 ≤ bit) ∧ (op ≤ 12 → op ≠ 7 → 3 ≤ bit) ∧
      op ≠ 13 := by
  unfold IgnoredBit at h
  omega

/-- Settles O3: an ignored bit lies outside the opcode and outside every field that the decoder reads for it. -/
theorem ignoredBitsHaveNoEffect : Obligations.IgnoredBitsHaveNoEffect := by
  unfold Obligations.IgnoredBitsHaveNoEffect
  intro w bit h
  obtain ⟨belowOpcode, aboveA, aboveB, aboveC, notImmediate⟩ := ignoredBit_bounds h
  exact decode_congr (opcodeField_flipBit belowOpcode) (fun hop => fieldA_flipBit (aboveA hop))
    (fun hop => fieldB_flipBit (aboveB hop)) (fun hop h7 => fieldC_flipBit (aboveC hop h7))
    fun hop => absurd hop notImmediate

end Encoding

end Sys2Proof

/-! ## Family 40_fetch_decode_execute.md: the fetch bound, the final states, and the halt -/

namespace Sys2Proof.Machine

/-! ### The fetch bound (R91) -/

/-- The fetch is refused exactly when `pc` is at or beyond the length of array 0. -/
theorem fetch_eq_outOfBounds_iff (s : State) :
    fetch s = .outOfBounds ↔ ∃ n, s.len? 0 = some n ∧ n ≤ s.pc.toNat := by
  rcases fetch_cases s with ⟨hfind, hfetch⟩ | ⟨a, hfind, hpc, hfetch⟩ | ⟨a, hfind, hpc, hfetch⟩
  · simp [hfetch, State.len?, hfind]
  · simp [hfetch, State.len?, hfind, hpc]
  · simp [hfetch, State.len?, hfind, hpc]

theorem step_of_running {s : State} (h : s.run = .running) : step s = stepRunning s := by
  simp only [step, h]

theorem stepRunning_of_outOfBounds {s : State} (h : fetch s = .outOfBounds) :
    stepRunning s = .next (raiseFatal .fetchOutOfBounds s) := by
  simp only [stepRunning, h]

/-- Settles O7: the refused fetch raises the fatal condition on the state before the advance of `pc`. -/
theorem fetchPastTheEndAborts : Obligations.FetchPastTheEndAborts := by
  unfold Obligations.FetchPastTheEndAborts
  intro s n hrun hlen hpc
  have hfetch : fetch s = .outOfBounds := (fetch_eq_outOfBounds_iff s).2 ⟨n, hlen, hpc⟩
  calc step s = stepRunning s := step_of_running hrun
    _ = .next (raiseFatal .fetchOutOfBounds s) := stepRunning_of_outOfBounds hfetch
    _ = .next { s with run := .aborted .fetchOutOfBounds } := rfl

/-! ### The final states (R99) -/

/-- A step is enabled only while the core runs or waits for the host. -/
theorem run_of_step_eq_next {s t : State} (h : step s = .next t) :
    s.run = .running ∨ ∃ c, s.run = .awaitInput c := by
  rcases step_cases h with ⟨_, hrun, -⟩ | ⟨_, hrun, -⟩ | ⟨c, hwait, -⟩
  · exact .inl hrun
  · exact .inl hrun
  · exact .inr ⟨c, hwait⟩

/-- Settles O8: a final run state is neither of the two in which a step is enabled. -/
theorem finalStatesHaveNoStep : Obligations.FinalStatesHaveNoStep := by
  unfold Obligations.FinalStatesHaveNoStep
  intro s t reason hfinal hstep
  rcases run_of_step_eq_next hstep with hrun | ⟨c, hwait⟩
  · simp [hrun] at hfinal
  · simp [hwait] at hfinal

/-! ### The halt (R95) -/

theorem exec_halt (s : State) : exec .halt s = .next (s.setRun .halted) := rfl

/-- The second halt row ends the run whatever opcode value it carries. -/
theorem exec_haltUndef (op : BitVec 4) (s : State) : exec (.haltUndef op) s = .next (s.setRun .halted) := rfl

/-- Settles O18: both halt rows set the run state, and `setRun` keeps every other field. -/
theorem haltEndsTheRunCleanly : Obligations.HaltEndsTheRunCleanly := by
  unfold Obligations.HaltEndsTheRunCleanly
  exact fun op s => ⟨exec_halt s, exec_haltUndef op s⟩

end Sys2Proof.Machine

/-! ## Family 41_three_register.md: the seven three-register instructions -/

namespace Sys2Proof.Machine

/-! ### Frames of a register write and of a Word write -/

/-- A register write changes nothing but the register. -/
theorem onlyRegisterWritten_setReg (a : Reg) (v : Word) (s : State) : OnlyRegisterWritten a v s (s.setReg a v) := by
  have hreg : (s.setReg a v).reg a = v := by simp
  have hregs : RegsKeptExcept [a] s (s.setReg a v) := fun r hr => by
    rw [State.reg_setReg, if_neg (List.ne_of_not_mem_cons hr)]
  exact ⟨hreg, hregs, rfl, ⟨fun _ _ => rfl, fun _ => rfl⟩, ⟨rfl, rfl⟩, rfl, ⟨rfl, rfl, rfl⟩, rfl, rfl⟩

theorem State.word?_of_find {s : State} {id : Nat} {arr : BankArray} (h : Memory.find s.bank id = some arr)
    (off : Nat) : s.word? id off = if arr.len ≤ off then none else some (arr.word off) := by
  simp only [State.word?, h]

theorem State.len?_of_find {s : State} {id : Nat} {arr : BankArray} (h : Memory.find s.bank id = some arr) :
    s.len? id = some arr.len := by
  simp [State.len?, h]

/-- A Word written at an offset inside its array is read back there (20_memory.md R53). -/
theorem State.word?_put_setWord_same (s : State) (id : Nat) {arr : BankArray} {off : Nat} (hoff : off < arr.len)
    (v : Word) : (s.setBank (Memory.put s.bank id (arr.setWord off v))).word? id off = some v := by
  simp [State.word?_put, Nat.not_le.2 hoff]

/-- A Word write leaves every other address and every length as it was (20_memory.md R53, 10_state.md R31). -/
theorem memoryKeptExcept_put_setWord {s : State} {id : Nat} {arr : BankArray} (h : Memory.find s.bank id = some arr)
    (off : Nat) (v : Word) : MemoryKeptExcept id off s (s.setBank (Memory.put s.bank id (arr.setWord off v))) := by
  constructor
  · intro j o hne
    rw [State.word?_put]
    by_cases hj : j = id
    · subst hj
      have ho : o ≠ off := fun ho => hne ⟨rfl, ho⟩
      rw [if_pos rfl, BankArray.len_setWord, BankArray.word_setWord_other ho, State.word?_of_find h]
    · rw [if_neg hj]
  · intro j
    rw [State.len?_put]
    by_cases hj : j = id
    · subst hj
      rw [if_pos rfl, BankArray.len_setWord, State.len?_of_find h]
    · rw [if_neg hj]

/-! ### One Word of memory read or written: each outcome in terms of what the state holds (20_memory.md R52, R53) -/

theorem Memory.read_of_word {s : State} {id off : Nat} {v : Word} (h : s.word? id off = some v)
    (nf ob : FatalReason) : Memory.read s.bank nf ob id off = .ok v := by
  obtain ⟨arr, hfind, hoff, rfl⟩ := (s.word?_eq_some_iff id off v).1 h
  simp only [Memory.read, hfind, if_neg (Nat.not_le.2 hoff)]

theorem Memory.read_of_absent {s : State} {id : Nat} (h : s.len? id = none) (nf ob : FatalReason) (off : Nat) :
    Memory.read s.bank nf ob id off = .error nf := by
  simp only [Memory.read, (s.len?_eq_none_iff id).1 h]

theorem Memory.read_of_len_le {s : State} {id n off : Nat} (h : s.len? id = some n) (hoff : n ≤ off)
    (nf ob : FatalReason) : Memory.read s.bank nf ob id off = .error ob := by
  obtain ⟨arr, hfind, rfl⟩ := (s.len?_eq_some_iff id n).1 h
  simp only [Memory.read, hfind, if_pos hoff]

theorem Memory.write_of_find {m : Memory} {id off : Nat} {arr : BankArray} (h : Memory.find m id = some arr)
    (hoff : off < arr.len) (nf ob : FatalReason) (v : Word) :
    Memory.write m nf ob id off v = .ok (Memory.put m id (arr.setWord off v)) := by
  simp only [Memory.write, h, if_neg (Nat.not_le.2 hoff)]

theorem Memory.write_of_absent {s : State} {id : Nat} (h : s.len? id = none) (nf ob : FatalReason) (off : Nat)
    (v : Word) : Memory.write s.bank nf ob id off v = .error nf := by
  simp only [Memory.write, (s.len?_eq_none_iff id).1 h]

theorem Memory.write_of_len_le {s : State} {id n off : Nat} (h : s.len? id = some n) (hoff : n ≤ off)
    (nf ob : FatalReason) (v : Word) : Memory.write s.bank nf ob id off v = .error ob := by
  obtain ⟨arr, hfind, rfl⟩ := (s.len?_eq_some_iff id n).1 h
  simp only [Memory.write, hfind, if_pos hoff]

/-! ### Array Index (R112) -/

theorem exec_index (a b c : Reg) (s : State) :
    exec (.index a b c) s = commit s ((Memory.read s.bank .indexNotFound .indexOutOfBounds (s.reg b).toNat
      (s.reg c).toNat).map fun v => s.setReg a v) := rfl

theorem exec_index_of_word {b c : Reg} {s : State} {v : Word}
    (h : s.word? (s.reg b).toNat (s.reg c).toNat = some v) (a : Reg) :
    exec (.index a b c) s = .next (s.setReg a v) := by
  rw [exec_index, Memory.read_of_word h]
  rfl

theorem exec_index_of_absent {b : Reg} {s : State} (h : s.len? (s.reg b).toNat = none) (a c : Reg) :
    exec (.index a b c) s = .next (raiseFatal .indexNotFound s) := by
  rw [exec_index, Memory.read_of_absent h]
  rfl

theorem exec_index_of_len_le {b c : Reg} {s : State} {n : Nat} (h : s.len? (s.reg b).toNat = some n)
    (hoff : n ≤ (s.reg c).toNat) (a : Reg) :
    exec (.index a b c) s = .next (raiseFatal .indexOutOfBounds s) := by
  rw [exec_index, Memory.read_of_len_le h hoff]
  rfl

/-- Settles O12: the read's three outcomes, of which only the one that finds a Word writes a register. -/
theorem arrayIndex : Obligations.ArrayIndex := by
  unfold Obligations.ArrayIndex
  intro a b c s
  refine ⟨fun v hword => ?_, fun habsent => ?_, fun n hlen hoff => ?_⟩
  · exact ⟨_, exec_index_of_word hword a, onlyRegisterWritten_setReg a v s⟩
  · exact exec_index_of_absent habsent a c
  · exact exec_index_of_len_le hlen hoff a

/-! ### Array Amend (R114) -/

theorem exec_amend (a b c : Reg) (s : State) :
    exec (.amend a b c) s = commit s ((Memory.write s.bank .amendNotFound .amendOutOfBounds (s.reg a).toNat
      (s.reg b).toNat (s.reg c)).map fun m => s.setBank m) := rfl

theorem exec_amend_of_find {a b : Reg} {s : State} {arr : BankArray}
    (h : Memory.find s.bank (s.reg a).toNat = some arr) (hoff : (s.reg b).toNat < arr.len) (c : Reg) :
    exec (.amend a b c) s =
      .next (s.setBank (Memory.put s.bank (s.reg a).toNat (arr.setWord (s.reg b).toNat (s.reg c)))) := by
  rw [exec_amend, Memory.write_of_find h hoff]
  rfl

theorem exec_amend_of_absent {a : Reg} {s : State} (h : s.len? (s.reg a).toNat = none) (b c : Reg) :
    exec (.amend a b c) s = .next (raiseFatal .amendNotFound s) := by
  rw [exec_amend, Memory.write_of_absent h]
  rfl

theorem exec_amend_of_len_le {a b : Reg} {s : State} {n : Nat} (h : s.len? (s.reg a).toNat = some n)
    (hoff : n ≤ (s.reg b).toNat) (c : Reg) :
    exec (.amend a b c) s = .next (raiseFatal .amendOutOfBounds s) := by
  rw [exec_amend, Memory.write_of_len_le h hoff]
  rfl

/-- Settles O13: the write's three outcomes; the one that completes puts back the named array with one Word replaced. -/
theorem arrayAmend : Obligations.ArrayAmend := by
  unfold Obligations.ArrayAmend
  intro a b c s
  refine ⟨fun n hlen hoff => ?_, fun habsent => ?_, fun n hlen hoff => ?_⟩
  · obtain ⟨arr, hfind, rfl⟩ := (s.len?_eq_some_iff _ n).1 hlen
    exact ⟨_, exec_amend_of_find hfind hoff c, s.word?_put_setWord_same _ hoff _,
      memoryKeptExcept_put_setWord hfind _ _, fun _ _ => rfl, rfl, ⟨rfl, rfl⟩, rfl, ⟨rfl, rfl, rfl⟩, rfl, rfl⟩
  · exact exec_amend_of_absent habsent b c
  · exact exec_amend_of_len_le hlen hoff c

/-! ### Conditional Move (R110) -/

@[simp] theorem conditionHolds_iff (v : Word) : conditionHolds v = true ↔ v ≠ 0#32 := by
  simp [conditionHolds]

theorem exec_cmov_of_ne_zero {c : Reg} {s : State} (h : s.reg c ≠ 0#32) (a b : Reg) :
    exec (.cmov a b c) s = .next (s.setReg a (s.reg b)) := by
  simp only [exec, execCmov, if_pos ((conditionHolds_iff _).2 h)]

theorem exec_cmov_of_eq_zero {c : Reg} {s : State} (h : s.reg c = 0#32) (a b : Reg) :
    exec (.cmov a b c) s = .next s := by
  have hcond : ¬ conditionHolds (s.reg c) = true := fun hc => (conditionHolds_iff _).1 hc h
  simp only [exec, execCmov, if_neg hcond]

/-- Settles O11: the condition register decides between a register write and no effect. -/
theorem conditionalMove : Obligations.ConditionalMove := by
  unfold Obligations.ConditionalMove
  intro a b c s
  by_cases h : s.reg c = 0#32
  · exact ⟨s, exec_cmov_of_eq_zero h a b, fun hne => absurd h hne, fun _ => rfl⟩
  · exact ⟨_, exec_cmov_of_ne_zero h a b, fun _ => onlyRegisterWritten_setReg a _ s, fun h0 => absurd h0 h⟩

/-! ### The arithmetic on Words (R105, R116, R118, R120, R122) -/

@[simp] theorem toNat_addWords (x y : Word) : (addWords x y).toNat = (x.toNat + y.toNat) % 2 ^ 32 := by
  simp [addWords]

@[simp] theorem toNat_mulWords (x y : Word) : (mulWords x y).toNat = x.toNat * y.toNat % 2 ^ 32 := by
  simp [mulWords]

theorem divWords_zero (x : Word) : divWords x 0#32 = none := rfl

/-- The quotient by a non-zero divisor is the unsigned division of bit vectors: it needs no reduction (R105). -/
theorem divWords_of_ne_zero (x : Word) {y : Word} (h : y ≠ 0#32) : divWords x y = some (x / y) := by
  rw [divWords, if_neg h, ← BitVec.toNat_udiv, BitVec.ofNat_toNat, BitVec.setWidth_eq]

theorem getLsbD_nandWords (x y : Word) {k : Nat} (hk : k < 32) :
    (nandWords x y).getLsbD k = !(x.getLsbD k && y.getLsbD k) := by
  simp [nandWords, hk]

/-! ### Addition, Multiplication, Division and NAND -/

theorem exec_add (a b c : Reg) (s : State) :
    exec (.add a b c) s = .next (s.setReg a (addWords (s.reg b) (s.reg c))) := rfl

theorem exec_mul (a b c : Reg) (s : State) :
    exec (.mul a b c) s = .next (s.setReg a (mulWords (s.reg b) (s.reg c))) := rfl

theorem exec_nand (a b c : Reg) (s : State) :
    exec (.nand a b c) s = .next (s.setReg a (nandWords (s.reg b) (s.reg c))) := rfl

theorem exec_div_of_ne_zero {c : Reg} {s : State} (h : s.reg c ≠ 0#32) (a b : Reg) :
    exec (.div a b c) s = .next (s.setReg a (s.reg b / s.reg c)) := by
  simp only [exec, execDiv, divWords_of_ne_zero _ h]

theorem exec_div_of_eq_zero {c : Reg} {s : State} (h : s.reg c = 0#32) (a b : Reg) :
    exec (.div a b c) s = .next (raiseFatal .divisionByZero s) := by
  simp only [exec, execDiv, h, divWords_zero]

/-- Settles O14: the register write of the sum, which `addWords` reduces modulo 2^32. -/
theorem additionWraps : Obligations.AdditionWraps := by
  unfold Obligations.AdditionWraps
  exact fun a b c s => ⟨_, _, exec_add a b c s, onlyRegisterWritten_setReg a _ s, toNat_addWords _ _⟩

/-- Settles O15: the register write of the product, of which `mulWords` keeps the low half. -/
theorem multiplicationWraps : Obligations.MultiplicationWraps := by
  unfold Obligations.MultiplicationWraps
  exact fun a b c s => ⟨_, _, exec_mul a b c s, onlyRegisterWritten_setReg a _ s, toNat_mulWords _ _⟩

/-- Settles O16: the divisor decides between the register write of the quotient and the abort. -/
theorem divisionTruncates : Obligations.DivisionTruncates := by
  unfold Obligations.DivisionTruncates
  intro a b c s
  refine ⟨fun hne => ?_, fun hzero => ?_⟩
  · exact ⟨_, _, exec_div_of_ne_zero hne a b, onlyRegisterWritten_setReg a _ s, BitVec.toNat_udiv⟩
  · exact exec_div_of_eq_zero hzero a b

/-- Settles O17: the register write of `nandWords`, read bit by bit. -/
theorem nandIsBitwise : Obligations.NandIsBitwise := by
  unfold Obligations.NandIsBitwise
  exact fun a b c s =>
    ⟨_, _, exec_nand a b c s, onlyRegisterWritten_setReg a _ s, fun _ hk => getLsbD_nandWords _ _ hk⟩

end Sys2Proof.Machine

/-! ## Family 42_bank_management.md: the allocator, Allocation and Deallocation -/

namespace Sys2Proof.Machine

/-! ### Presence of an identifier, as claims read it -/

theorem State.len?_eq_none_iff_absent (s : State) (id : Nat) : s.len? id = none ↔ Memory.present s.bank id = false := by
  rw [State.len?_eq_none_iff, Memory.present_eq_false_iff]

theorem State.len?_ne_none_iff_present (s : State) (id : Nat) : s.len? id ≠ none ↔ Memory.present s.bank id = true := by
  rw [Ne, State.len?_eq_none_iff_absent, Bool.not_eq_false]

/-- Every identifier below the next-candidate is in use, 0 among them (R132 clause 3, 10_state.md R32). -/
theorem AllocatorInv.len?_ne_none {s : State} (h : AllocatorInv s) (hprog : Memory.present s.bank 0 = true) {id : Nat}
    (hlt : id < s.next) : s.len? id ≠ none := by
  rw [State.len?_ne_none_iff_present]
  rcases Nat.eq_zero_or_pos id with rfl | hpos
  · exact hprog
  · exact h.used_below hpos hlt

/-! ### Deallocation (R138, R140) -/

/-- The state after `Free` has removed the array `id` and made its identifier reusable. -/
def State.withoutArray (s : State) (id : Nat) : State :=
  (s.setAllocator (giveBack s.pool s.next id).1 (giveBack s.pool s.next id).2).setBank (Memory.delete s.bank id)

theorem State.len?_withoutArray (s : State) (id j : Nat) :
    (s.withoutArray id).len? j = if j = id then none else s.len? j := State.len?_delete _ id j

theorem State.word?_withoutArray (s : State) (id j off : Nat) :
    (s.withoutArray id).word? j off = if j = id then none else s.word? j off := State.word?_delete _ id j off

/-- The smaller of the freed identifier and the old next-candidate becomes the next-candidate. -/
@[simp] theorem State.next_withoutArray (s : State) (id : Nat) : (s.withoutArray id).next = min s.next id := by
  show (giveBack s.pool s.next id).2 = min s.next id
  by_cases hlt : id < s.next
  · simp [giveBack, hlt, hlt.le]
  · simp [giveBack, hlt, Nat.not_lt.1 hlt]

/-- The larger of the two joins the pool, but for the value 2^32, which names no identifier (R130). -/
theorem State.mem_pool_withoutArray (s : State) (id p : Nat) :
    p ∈ (s.withoutArray id).pool ↔
      p ∈ s.pool ∨ (id < s.next ∧ s.next < Config.wordLimit ∧ p = s.next) ∨ (s.next ≤ id ∧ p = id) := by
  show p ∈ (giveBack s.pool s.next id).1 ↔ _
  by_cases hlt : id < s.next
  · by_cases hfull : s.next < Config.wordLimit
    · simp [giveBack, hlt, hfull, Nat.not_le.2 hlt, or_comm]
    · simp [giveBack, hlt, hfull, Nat.not_le.2 hlt]
  · simp [giveBack, hlt, Nat.not_lt.1 hlt, or_comm]

theorem arraysKeptExcept_withoutArray (s : State) (id : Nat) : ArraysKeptExcept id s (s.withoutArray id) :=
  ⟨fun j off hne => by rw [State.word?_withoutArray, if_neg hne], fun j hne => by rw [State.len?_withoutArray, if_neg hne]⟩

theorem exec_free (c : Reg) (s : State) : exec (.free c) s = commit s (free (s.reg c).toNat s) := rfl

theorem exec_free_of_present {c : Reg} {s : State} (h0 : (s.reg c).toNat ≠ 0)
    (hp : Memory.present s.bank (s.reg c).toNat = true) :
    exec (.free c) s = .next (s.withoutArray (s.reg c).toNat) := by
  rw [exec_free, free, if_neg h0, if_pos hp]
  rfl

theorem exec_free_of_zero {c : Reg} {s : State} (h : (s.reg c).toNat = 0) :
    exec (.free c) s = .next (raiseFatal .freeZero s) := by
  rw [exec_free, free, if_pos h]
  rfl

theorem exec_free_of_absent {c : Reg} {s : State} (h0 : (s.reg c).toNat ≠ 0)
    (hp : Memory.present s.bank (s.reg c).toNat = false) :
    exec (.free c) s = .next (raiseFatal .freeNotFound s) := by
  rw [exec_free, free, if_neg h0, hp]
  rfl

theorem Word.toNat_ne_zero {v : Word} (h : v ≠ 0#32) : v.toNat ≠ 0 :=
  fun h0 => h (BitVec.eq_of_toNat_eq h0)

/-- Settles O21: the three outcomes of `Free`, of which only the one that finds an array other than 0 changes the bank. -/
theorem deallocationGivesBack : Obligations.DeallocationGivesBack := by
  unfold Obligations.DeallocationGivesBack
  intro c s
  refine ⟨fun hne hlen => ?_, fun hzero => ?_, fun hne hnone => ?_⟩
  · have hp := (s.len?_ne_none_iff_present _).1 hlen
    exact ⟨_, exec_free_of_present (Word.toNat_ne_zero hne) hp, by simp [State.len?_withoutArray],
      fun off => by simp [State.word?_withoutArray], arraysKeptExcept_withoutArray s _, fun _ _ => rfl, rfl, rfl,
      ⟨rfl, rfl, rfl⟩, ⟨rfl, rfl⟩, s.next_withoutArray _, s.mem_pool_withoutArray _⟩
  · exact exec_free_of_zero (by simp [hzero])
  · exact exec_free_of_absent (Word.toNat_ne_zero hne) ((s.len?_eq_none_iff_absent _).1 hnone)

/-! ### Allocation (R131, R134) -/

/-- The state after `Alloc` has put a new array of `n` Words under the next-candidate. -/
def State.withNewArray (s : State) (n : Nat) : State :=
  { s with
    bank := Memory.put s.bank s.next (BankArray.zeros n)
    pool := (refill s.bank s.pool s.next).1
    next := (refill s.bank s.pool s.next).2
    storageGrants := s.storageGrants.map (· - 1) }

theorem State.present_withNewArray (s : State) (n id : Nat) :
    Memory.present (s.withNewArray n).bank id = (decide (id = s.next) || Memory.present s.bank id) :=
  Memory.present_put s.bank s.next id _

/-- An Allocation that completes had an identifier to hand out, and hands out the next-candidate. -/
theorem exec_alloc_completes {b c : Reg} {s t : State} (h : exec (.alloc b c) s = .next t) (hrun : t.run = .running) :
    s.next < Config.wordLimit ∧ t = (s.withNewArray (s.length c)).setReg b (identifierWord s.next) := by
  simp only [exec, execAlloc] at h
  rcases alloc_cases (s.length c) s with ⟨-, he⟩ | ⟨hn, -, he⟩ <;> rw [he] at h <;> cases h
  · cases hrun
  · exact ⟨hn, rfl⟩

theorem toNat_identifierWord {id : Nat} (h : id < Config.wordLimit) : (identifierWord id).toNat = id :=
  (BitVec.toNat_ofNat id 32).trans (Nat.mod_eq_of_lt h)

/-- In a bank in canonical form no identifier is listed twice. -/
theorem Memory.nodup_of_wf {m : Memory} (h : Memory.wf m = true) : (m.map Prod.fst).Nodup := by
  obtain ⟨hrise, -⟩ := (keysRiseBelow_iff _ _).1 ((Memory.wf_iff m).1 h).1
  exact List.pairwise_map.2 (hrise.imp fun hlt => hlt.ne)

theorem Memory.wf_withNewArray {s : State} (h : Memory.wf s.bank = true) (hn : s.next < Config.wordLimit) (c : Reg) :
    Memory.wf (s.withNewArray (s.length c)).bank = true :=
  Memory.wf_put h hn (BankArray.wf_zeros (s.reg c).isLt)

/-- Settles O22: the identifier written is the next-candidate, and the invariant says that it is the smallest unused one. -/
theorem allocationReturnsTheSmallestUnused : Obligations.AllocationReturnsTheSmallestUnused := by
  unfold Obligations.AllocationReturnsTheSmallestUnused
  intro b c s t hinv _ hexec hrun
  obtain ⟨hn, rfl⟩ := exec_alloc_completes hexec hrun
  have hreg : ((s.withNewArray (s.length c)).setReg b (identifierWord s.next)).reg b = identifierWord s.next := by simp
  have hnum := toNat_identifierWord hn
  rw [hreg, hnum]
  refine ⟨fun hzero => ?_, ?_, fun id hlt => ?_, ?_⟩
  · have hpos := hinv.allocator.next_pos
    simp only [hzero, BitVec.toNat_ofNat] at hnum
    omega
  · exact (s.len?_eq_none_iff_absent _).2 (hinv.allocator.next_unused hn)
  · exact hinv.allocator.len?_ne_none hinv.program_present hlt
  · exact Memory.nodup_of_wf (Memory.wf_withNewArray hinv.bank_wf hn c)

/-! ### Allocation, Deallocation, Allocation (R141) -/

/-- The next-candidate after an Allocation is above the identifier handed out: it comes from the pool, or from the skip loop. -/
theorem AllocatorInv.next_lt_withNewArray {s : State} (h : AllocatorInv s) (hn : s.next < Config.wordLimit) (n : Nat) :
    s.next < (s.withNewArray n).next := by
  show s.next < (Machine.refill s.bank s.pool s.next).2
  cases hpool : s.pool with
  | cons p rest => exact (h.pool_above p (by simp [hpool])).1
  | nil => exact (skipOccupied_spec s.bank (Nat.succ_le_of_lt hn)).1

/-- Settles O23: the freed identifier is below the next-candidate that followed it, so it is the next-candidate again. -/
theorem freedIdentifierIsReusedFirst : Obligations.FreedIdentifierIsReusedFirst := by
  unfold Obligations.FreedIdentifierIsReusedFirst
  intro b c d e s t u v hinv _ halloc htrun hfree hagain hvrun
  obtain ⟨hn, ht⟩ := exec_alloc_completes halloc htrun
  obtain ⟨-, hv⟩ := exec_alloc_completes hagain hvrun
  have hreg : t.reg b = identifierWord s.next := by simp [ht]
  have hid : (t.reg b).toNat = s.next := hreg ▸ toNat_identifierWord hn
  have hpresent : Memory.present t.bank (t.reg b).toNat = true := by
    rw [hid, ht]
    simp [State.present_withNewArray]
  have hnext : s.next < t.next := ht ▸ hinv.allocator.next_lt_withNewArray hn (s.length c)
  have hpos := hinv.allocator.next_pos
  have hu : u = t.withoutArray s.next := by
    rw [exec_free_of_present (by omega) hpresent, hid] at hfree
    cases hfree
    rfl
  have hback : u.next = s.next := by rw [hu, State.next_withoutArray, min_eq_right hnext.le]
  rw [hv, hreg, State.reg_setReg, if_pos rfl, hback]

/-! ### The allocator's invariant along a run (R132) -/

/-- The invariant speaks of the pool, the next-candidate, and which identifiers from 1 on are present. -/
theorem AllocatorInv.congr {s t : State} (h : AllocatorInv s)
    (hb : ∀ id, 1 ≤ id → Memory.present t.bank id = Memory.present s.bank id) (hp : t.pool = s.pool)
    (hn : t.next = s.next) : AllocatorInv t := by
  have htop : t.poolTop = s.poolTop := by simp only [State.poolTop, hp, hn]
  refine ⟨hn ▸ h.next_pos, hn ▸ h.next_le, hp ▸ h.pool_rises, ?_, fun id hpos => ?_, ?_⟩
  · rw [hp, hn]
    exact h.pool_above
  · rw [htop, hb id hpos, hp, hn]
    exact h.unused_iff id hpos
  · rw [htop]
    exact h.above_top.imp (fun hu id hgt hlim => (hb id (by omega)).trans (hu id hgt hlim))
      (fun hu id hgt hlim => (hb id (by omega)).trans (hu id hgt hlim))

/-- Every instruction keeps the allocator's invariant: only Allocation and Deallocation change which identifiers from 1 on are
present, and each moves the pool and the next-candidate to match. -/
theorem Effect.keeps_allocator {i : Instr} {s t : State} (h : Effect i s t) (hinv : AllocatorInv s) : AllocatorInv t := by
  cases h with
  | unchanged | register | jumped | emitted | requested | halted | aborted =>
    exact hinv.congr (fun _ _ => rfl) rfl rfl
  | amended id off v a hf _ =>
    have hp : Memory.present s.bank id = true := (Memory.present_iff _ _).2 ⟨a, hf⟩
    refine hinv.congr (fun j _ => ?_) rfl rfl
    by_cases hj : j = id <;> simp [Memory.present_put, hj, hp]
  | replaced =>
    refine hinv.congr (fun j hpos => ?_) rfl rfl
    simp [Memory.present_put, Nat.one_le_iff_ne_zero.1 hpos]
  | allocated _ _ _ hn _ => exact hinv.refill hn _ rfl rfl rfl
  | freed c _ h0 hp => exact hinv.giveBack h0 (s.reg c).isLt hp rfl rfl rfl

theorem step_keeps_allocator {s t : State} (h : step s = .next t) (hinv : AllocatorInv s) : AllocatorInv t := by
  rcases step_cases h with ⟨w, -, -, hexec⟩ | ⟨a, -, -, -, rfl⟩ | ⟨c, -, rfl⟩
  · exact (exec_effect hexec).keeps_allocator (hinv.congr (fun _ _ => rfl) rfl rfl)
  · exact hinv.congr (fun _ _ => rfl) rfl rfl
  · rcases awaitAnswer_cases c s with ⟨-, he⟩ | ⟨a, rest, -, he⟩ <;> rw [he]
    · exact hinv
    · exact hinv.congr (fun _ _ => rfl) rfl rfl

/-- At boot array 0 is the only one and 1 is the next-candidate (70_reset_and_hazards.md R223). -/
theorem allocatorInv_bootState (ws : List Word) (sink : Bool) : AllocatorInv (bootState ws sink) := by
  refine AllocatorInv.of_dense (le_refl 1) (by simp [bootState, State.reset]) rfl fun id => ?_
  have hone : (bootState ws sink).next = 1 := rfl
  rw [hone, Nat.lt_one_iff]
  by_cases h0 : id = 0
  · simp [h0]
  · simp [bootState, Memory.present, Memory.find, h0, Ne.symm h0]

theorem Reachable.allocatorInv {s : State} (h : Reachable s) : AllocatorInv s := by
  induction h with
  | boot image sink answers grants s hboot =>
    obtain ⟨ws, -, -, rfl⟩ := boot_eq_ok hboot
    exact (allocatorInv_bootState ws sink).congr (fun _ _ => rfl) rfl rfl
  | step s t _ hstep ih => exact step_keeps_allocator hstep ih
  | answer s a _ ih => exact ih.congr (fun _ _ => rfl) rfl rfl

/-- Settles O54: the allocator's invariant holds along every run, and clauses 1 and 3 of R132 follow from it. -/
theorem nextCandidateIsTheSmallestUnused : Obligations.NextCandidateIsTheSmallestUnused := by
  unfold Obligations.NextCandidateIsTheSmallestUnused
  intro s hs
  have hinv := hs.allocatorInv
  exact ⟨fun p hp => (hinv.pool_above p hp).1, hinv.next_pos, hinv.next_le,
    fun id hlt => hinv.len?_ne_none hs.program_present hlt,
    fun hn => (s.len?_eq_none_iff_absent _).2 (hinv.next_unused hn)⟩

/-! ### Clause 2 of R132 fails after exhaustion (entry 14) -/

/-- A bank of `n` empty arrays, under the identifiers below `n`. -/
def denseBank (n : Nat) : Memory := (List.range n).map fun id => (id, BankArray.zeros 0)

theorem mem_denseBank_iff (n : Nat) (e : Nat × BankArray) : e ∈ denseBank n ↔ e.1 < n ∧ e.2 = BankArray.zeros 0 := by
  obtain ⟨id, a⟩ := e
  simp [denseBank, eq_comm]

theorem denseBank_rises (n : Nat) : (denseBank n).Pairwise (fun e f => e.1 < f.1) :=
  List.pairwise_map.2 List.pairwise_lt_range

theorem present_denseBank_iff (n id : Nat) : Memory.present (denseBank n) id = true ↔ id < n := by
  rw [Memory.present_iff]
  constructor
  · rintro ⟨a, hfind⟩
    exact ((mem_denseBank_iff n _).1 (mem_of_lookupKey hfind)).1
  · intro hlt
    exact ⟨_, lookupKey_of_mem (denseBank_rises n) ((mem_denseBank_iff n (id, _)).2 ⟨hlt, rfl⟩)⟩

theorem wf_denseBank {n : Nat} (h : n ≤ Config.wordLimit) : Memory.wf (denseBank n) = true := by
  refine (Memory.wf_iff _).2 ⟨(keysRiseBelow_iff _ _).2 ⟨denseBank_rises n, fun e he => ?_⟩, fun e he => ?_⟩
  · exact lt_of_lt_of_le ((mem_denseBank_iff n e).1 he).1 h
  · rw [((mem_denseBank_iff n e).1 he).2]
    exact BankArray.wf_zeros (by decide)

/-- A state in which the identifiers in use are those below `n`, with identifier 1 in register 1. For `n` = 2^32 no identifier is
left (R130). The limit is a parameter so that no proof evaluates a bank of 2^32 arrays. -/
def denseState (n : Nat) : State :=
  { State.reset with regs := { State.reset.regs with r1 := 1#32 }, bank := denseBank n, next := n }

theorem machineInv_denseState {n : Nat} (h1 : 1 ≤ n) (hn : n ≤ Config.wordLimit) : MachineInv (denseState n) where
  bank_wf := wf_denseBank hn
  program_present := (present_denseBank_iff n 0).2 h1
  allocator := AllocatorInv.of_dense h1 hn rfl (present_denseBank_iff n)
  staging_empty := rfl

/-- With an empty pool M is the next-candidate, and clause 2 says that the unused identifiers are those from it on. -/
theorem unusedSetAsWritten_denseState (n : Nat) : UnusedSetAsWritten (denseState n) := by
  intro id _ _
  have habsent : (denseState n).len? id = none ↔ ¬ id < n := by
    rw [State.len?_eq_none_iff_absent, ← Bool.not_eq_true]
    exact not_congr (present_denseBank_iff n id)
  have hpool : (denseState n).pool = [] := rfl
  have hnext : (denseState n).next = n := rfl
  have htop : (denseState n).poolTop = n := rfl
  rw [habsent, hpool, hnext, htop]
  simp only [List.not_mem_nil, false_or]
  omega

theorem exec_free_denseState {n : Nat} (hn : 1 < n) :
    exec (.free .r1) (denseState n) = .next ((denseState n).withoutArray 1) :=
  exec_free_of_present (c := .r1) (s := denseState n) Nat.one_ne_zero ((present_denseBank_iff n 1).2 hn)

/-- When no identifier was left, freeing identifier 1 leaves the pool empty and makes 1 the next-candidate. -/
theorem poolTop_withoutArray_denseState {n : Nat} (hn : Config.wordLimit ≤ n) :
    ((denseState n).withoutArray 1).poolTop = 1 := by
  have h1 : 1 < n := lt_of_lt_of_le (by decide) hn
  have hpool : ((denseState n).withoutArray 1).pool = [] := by
    show (giveBack [] n 1).1 = []
    rw [giveBack, if_pos h1, if_neg (Nat.not_lt.2 hn)]
  rw [State.poolTop, hpool, State.next_withoutArray]
  exact min_eq_right h1.le

/-- So identifier 2 is above M there, where clause 2 wants it unused, and it is still in use. -/
theorem not_unusedSetAsWritten_withoutArray {n : Nat} (hn : Config.wordLimit ≤ n) :
    ¬ UnusedSetAsWritten ((denseState n).withoutArray 1) := by
  intro hset
  have h2 : 2 < n := lt_of_lt_of_le (by decide) hn
  have hunused : ((denseState n).withoutArray 1).len? 2 = none :=
    (hset 2 (by decide) (by decide)).2 (.inr (.inr (by rw [poolTop_withoutArray_denseState hn]; decide)))
  have hused : (denseState n).len? 2 ≠ none :=
    (State.len?_ne_none_iff_present _ 2).2 ((present_denseBank_iff n 2).2 h2)
  rw [State.len?_withoutArray, if_neg (by decide)] at hunused
  exact hused hunused

/-- Refutes O55: from the state in which every identifier is in use, a Deallocation of identifier 1 completes and leaves
identifier 2 in use above M. -/
theorem not_freeKeepsTheUnusedSetAsWritten : ¬ Obligations.FreeKeepsTheUnusedSetAsWritten := by
  unfold Obligations.FreeKeepsTheUnusedSetAsWritten
  intro h
  exact not_unusedSetAsWritten_withoutArray (le_refl Config.wordLimit)
    (h .r1 (denseState Config.wordLimit) ((denseState Config.wordLimit).withoutArray 1)
      (machineInv_denseState (by decide) (le_refl _)) (unusedSetAsWritten_denseState _) rfl
      (exec_free_denseState (by decide)) rfl)

end Sys2Proof.Machine

/-! ## Family 43_io.md: Output, and where the run meets the host -/

namespace Sys2Proof.Machine

/-! ### Where a step adds channel events or begins a wait (R162) -/

/-- The trace of an instruction only grows, and only Output and Input add events to it. -/
theorem Effect.trace_grows {i : Instr} {s t : State} (h : Effect i s t) :
    ∃ es, t.trace = s.trace ++ es ∧ (es ≠ [] → ∃ c, i = .out c ∨ i = .inp c) := by
  cases h with
  | unchanged | register | amended | allocated | freed | jumped | replaced | halted | aborted =>
    exact ⟨[], (List.append_nil _).symm, fun hne => absurd rfl hne⟩
  | emitted c b hi => exact ⟨_, rfl, fun _ => ⟨c, .inl hi⟩⟩
  | requested c hi => exact ⟨_, rfl, fun _ => ⟨c, .inr hi⟩⟩

/-- A running core waits after an instruction only if that was the Input of the register it waits for: the other effects keep
the run state or end the run. -/
theorem Effect.inp_of_waits {i : Instr} {s t : State} (h : Effect i s t) (hrun : s.run = .running) {c : Reg}
    (hwait : t.run = .awaitInput c) : i = .inp c := by
  cases h with
  | unchanged | register | amended | allocated | freed | jumped | replaced | emitted =>
    have hkept : RunState.running = .awaitInput c := hrun.symm.trans hwait
    cases hkept
  | requested c' hi =>
    cases hwait
    exact hi
  | halted | aborted => cases hwait

/-- A step of the wait adds the answer it takes, if there is one, to the trace. -/
theorem awaitAnswer_trace_grows (c : Reg) (s : State) : ∃ es, (awaitAnswer c s).trace = s.trace ++ es := by
  rcases awaitAnswer_cases c s with ⟨-, he⟩ | ⟨a, rest, -, he⟩ <;> rw [he]
  · exact ⟨[], (List.append_nil _).symm⟩
  · exact ⟨[.answer a], rfl⟩

/-- Over a step the trace only grows, and it grows only at an Output, at an Input, or while the core waits. -/
theorem step_trace_grows {s t : State} (h : step s = .next t) :
    ∃ es, t.trace = s.trace ++ es ∧
      (es ≠ [] → (∃ w c, Fetches s w ∧ (decode w = .out c ∨ decode w = .inp c)) ∨ ∃ c, s.run = .awaitInput c) := by
  rcases step_cases h with ⟨w, hrun, hword, hexec⟩ | ⟨_, -, -, -, rfl⟩ | ⟨c, hwait, rfl⟩
  · obtain ⟨es, htrace, hio⟩ := (exec_effect hexec).trace_grows
    refine ⟨es, htrace, fun hne => .inl ?_⟩
    obtain ⟨c, hdecode⟩ := hio hne
    exact ⟨w, c, ⟨hrun, hword⟩, hdecode⟩
  · exact ⟨[], (List.append_nil _).symm, fun hne => absurd rfl hne⟩
  · obtain ⟨es, htrace⟩ := awaitAnswer_trace_grows c s
    exact ⟨es, htrace, fun _ => .inr ⟨c, hwait⟩⟩

/-- A core that waits after a step waited for the same register before it, or ran its Input. -/
theorem waits_or_fetches_inp_of_step {s t : State} (h : step s = .next t) {c : Reg} (hwait : t.run = .awaitInput c) :
    s.run = .awaitInput c ∨ ∃ w, Fetches s w ∧ decode w = .inp c := by
  rcases step_cases h with ⟨w, hrun, hword, hexec⟩ | ⟨_, -, -, -, rfl⟩ | ⟨c', hbefore, rfl⟩
  · exact .inr ⟨w, ⟨hrun, hword⟩, (exec_effect hexec).inp_of_waits hrun hwait⟩
  · cases hwait
  · rcases awaitAnswer_cases c' s with ⟨-, he⟩ | ⟨_, _, -, he⟩ <;> rw [he] at hwait
    · exact .inl hwait
    · cases hwait

/-- Settles O31: the events and the wait of a step, each traced back through the cases of a step to the effect of the
instruction it ran. -/
theorem onlyOutputAndInputMeetTheHost : Obligations.OnlyOutputAndInputMeetTheHost := by
  unfold Obligations.OnlyOutputAndInputMeetTheHost
  exact fun s t h => ⟨step_trace_grows h, fun c hwait => waits_or_fetches_inp_of_step h hwait⟩

/-! ### Output (R158, R159) -/

theorem exec_out_of_le {c : Reg} {s : State} (h : (s.reg c).toNat ≤ 255) :
    exec (.out c) s = .next { s with trace := s.trace ++ [.out ((s.reg c).extractLsb' 0 8)], outStaging := none } := by
  simp only [exec, execOut, outputByte_eq_some h, emit_eq]

theorem exec_out_of_gt {c : Reg} {s : State} (h : 255 < (s.reg c).toNat) :
    exec (.out c) s = .next (raiseFatal .outputOutOfRange s) := by
  simp only [exec, execOut, outputByte_eq_none h]

/-- The low byte of a value of at most 255 is the value. -/
theorem toNat_lowByte_of_le {v : Word} (h : v.toNat ≤ 255) : (v.extractLsb' 0 8).toNat = v.toNat := by
  rw [BitVec.extractLsb'_toNat, Nat.shiftRight_zero]
  exact Nat.mod_eq_of_lt (by omega)

/-- Settles O26: the range of the value decides between the one event, which writes no other field but the staging, and the
abort. -/
theorem outputEmitsOneByte : Obligations.OutputEmitsOneByte := by
  unfold Obligations.OutputEmitsOneByte
  refine fun c s => ⟨fun hle => ?_, fun hgt => ?_⟩
  · exact ⟨_, _, exec_out_of_le hle, toNat_lowByte_of_le hle, rfl, rfl, rfl, fun _ _ => rfl, rfl,
      ⟨fun _ _ => rfl, fun _ => rfl⟩, ⟨rfl, rfl⟩, rfl, rfl, rfl⟩
  · exact exec_out_of_gt hgt

end Sys2Proof.Machine

/-! ## Family 44_program_and_immediate.md: Load Program and Load Immediate -/

namespace Sys2Proof.Machine

/-! ### The step that fetches a Word (40_fetch_decode_execute.md R94) -/

theorem step_of_word {s : State} {w : Word} (hrun : s.run = .running) (hw : s.word? 0 s.pc.toNat = some w) :
    step s = exec (decode w) s.advancePc := by
  rw [step_of_running hrun, stepRunning, (fetch_eq_word_iff s w).2 hw]

/-! ### Load Program (R170, R173) -/

/-- The state after array 0 was replaced by a copy of `a`, with one storage request met (R170, R171). -/
def State.withProgram (s : State) (a : BankArray) : State :=
  { s with bank := Memory.put s.bank 0 a, storageGrants := s.storageGrants.map (· - 1) }

/-- The new program reads as the array it is a copy of. -/
theorem State.word?_withProgram {s : State} {id : Nat} {a : BankArray} (h : Memory.find s.bank id = some a) (off : Nat) :
    (s.withProgram a).word? 0 off = s.word? id off :=
  (s.word?_put 0 0 off a).trans (State.word?_of_find h off).symm

theorem State.len?_withProgram {s : State} {id : Nat} {a : BankArray} (h : Memory.find s.bank id = some a) :
    (s.withProgram a).len? 0 = s.len? id :=
  (s.len?_put 0 0 a).trans (State.len?_of_find h).symm

theorem exec_loadprog_of_ne_zero {b : Reg} {s : State} (hb : s.reg b ≠ 0#32) (c : Reg) :
    exec (.loadprog b c) s = commit s ((copyToProgram (s.reg b).toNat s).map fun t => t.setPc (s.reg c)) :=
  if_neg hb

/-- A Load Program from another array that leaves the core Running has replaced array 0 and jumped: its other outcomes are
aborts. -/
theorem exec_loadprog_completes {b c : Reg} {s t : State} (hb : s.reg b ≠ 0#32) (h : exec (.loadprog b c) s = .next t)
    (hrun : t.run = .running) :
    ∃ a, Memory.find s.bank (s.reg b).toNat = some a ∧ t = (s.withProgram a).setPc (s.reg c) := by
  rw [exec_loadprog_of_ne_zero hb] at h
  rcases copyToProgram_cases (s.reg b).toNat s with ⟨-, he⟩ | ⟨-, -, -, he⟩ | ⟨a, hfind, -, he⟩ <;>
    rw [he] at h <;> cases h
  · cases hrun
  · cases hrun
  · exact ⟨a, hfind, rfl⟩

/-- Settles O35: array 0 now reads as the source array did and `pc` is the target, so the next fetch finds the source's
Word there, or the bound that O7 speaks of. -/
theorem loadedProgramRunsNext : Obligations.LoadedProgramRunsNext := by
  unfold Obligations.LoadedProgramRunsNext
  intro b c s t n _ hb hlen hexec hrun
  obtain ⟨a, hfind, rfl⟩ := exec_loadprog_completes hb hexec hrun
  refine ⟨fun w hw => ?_, fun hend => ?_⟩
  · have hfetch : ((s.withProgram a).setPc (s.reg c)).word? 0 (s.reg c).toNat = some w :=
      (State.word?_withProgram hfind _).trans hw
    exact step_of_word hrun hfetch
  · have hlen' : ((s.withProgram a).setPc (s.reg c)).len? 0 = some n := (State.len?_withProgram hfind).trans hlen
    exact fetchPastTheEndAborts _ n hrun hlen' hend

/-! ### Load Immediate (R174) -/

theorem exec_li (a : Reg) (imm : BitVec 25) (s : State) :
    exec (.li a imm) s = .next (s.setReg a (immediateWord imm)) := rfl

/-- Zero extension to a Word keeps the number, since 25 bits fit in 32. -/
@[simp] theorem toNat_immediateWord (imm : BitVec 25) : (immediateWord imm).toNat = imm.toNat :=
  BitVec.toNat_setWidth_of_le (by decide)

/-- Settles O37: one register write, of a Word whose number is the immediate's. -/
theorem loadImmediateZeroExtends : Obligations.LoadImmediateZeroExtends := by
  unfold Obligations.LoadImmediateZeroExtends
  exact fun a imm s =>
    ⟨_, _, exec_li a imm s, onlyRegisterWritten_setReg a (immediateWord imm) s, toNat_immediateWord imm⟩

end Sys2Proof.Machine

/-! ## Family 60_exceptions.md: faults are precise -/

namespace Sys2Proof.Machine

/-! ### A step that aborts (R192) -/

/-- An instruction that a running core ends in Aborted raised a fatal condition of its own and wrote nothing: each other
effect keeps the run state, waits or halts. -/
theorem Effect.eq_raiseFatal_of_aborted {i : Instr} {s t : State} (h : Effect i s t) (hrun : s.run = .running)
    {reason : FatalReason} (habort : t.run = .aborted reason) :
    reason ≠ .fetchOutOfBounds ∧ t = raiseFatal reason s := by
  cases h with
  | unchanged | register | amended | allocated | freed | jumped | replaced | emitted =>
    have hkept : RunState.running = .aborted reason := hrun.symm.trans habort
    cases hkept
  | requested | halted => cases habort
  | aborted raised hraised =>
    cases habort
    exact ⟨hraised, rfl⟩

/-- A step of the wait never ends in Aborted: it stays in the wait, or the core runs again. -/
theorem run_awaitAnswer_ne_aborted {c : Reg} {s : State} (hwait : s.run = .awaitInput c) (reason : FatalReason) :
    (awaitAnswer c s).run ≠ .aborted reason := by
  rcases awaitAnswer_cases c s with ⟨-, he⟩ | ⟨a, rest, -, he⟩ <;> rw [he]
  · simp [hwait]
  · simp

/-- A step ends in Aborted in two ways: the fetch is refused on the state as it was, or the instruction raises another fatal
condition on the state the fetch advanced. -/
theorem step_eq_raiseFatal_of_aborted {s t : State} {reason : FatalReason} (h : step s = .next t)
    (habort : t.run = .aborted reason) :
    (reason = .fetchOutOfBounds ∧ t = raiseFatal reason s) ∨
    (reason ≠ .fetchOutOfBounds ∧ t = raiseFatal reason s.advancePc) := by
  rcases step_cases h with ⟨w, hrun, -, hexec⟩ | ⟨_, -, -, -, rfl⟩ | ⟨c, hwait, rfl⟩
  · exact .inr ((exec_effect hexec).eq_raiseFatal_of_aborted hrun habort)
  · cases habort
    exact .inl ⟨rfl, rfl⟩
  · exact absurd habort (run_awaitAnswer_ne_aborted hwait reason)

/-- Settles O44: both ways to abort set only the run state, and only the one in the instruction starts from the advanced
`pc`. -/
theorem faultsArePrecise : Obligations.FaultsArePrecise := by
  unfold Obligations.FaultsArePrecise
  intro s t reason hstep habort
  rcases step_eq_raiseFatal_of_aborted hstep habort with ⟨hfetch, rfl⟩ | ⟨hfetch, rfl⟩
  · rw [if_pos hfetch]
    rfl
  · rw [if_neg hfetch]
    rfl

end Sys2Proof.Machine

/-! ## Family 70_reset_and_hazards.md: boot -/

namespace Sys2Proof.Machine

/-! ### The image's Words (R221) -/

/-- Word `k` of an image: the four bytes from `4 * k` on, the first the most significant (R221). `imageWords_reject` ties it
to the model's conversion. -/
def wordAt (image : List Byte) (k : Nat) : Word :=
  wordOfBytes (image.getD (4 * k) 0#8) (image.getD (4 * k + 1) 0#8) (image.getD (4 * k + 2) 0#8)
    (image.getD (4 * k + 3) 0#8)

/-- The Words that an image holds in full, in order. -/
def fullWords (image : List Byte) : List Word := (List.range (image.length / 4)).map (wordAt image)

/-- The bytes of a Word are the digits of its number to the base 256 (R221). -/
theorem toNat_wordOfBytes (b0 b1 b2 b3 : Byte) :
    (wordOfBytes b0 b1 b2 b3).toNat = b0.toNat * 2 ^ 24 + b1.toNat * 2 ^ 16 + b2.toNat * 2 ^ 8 + b3.toNat := by
  simp only [wordOfBytes, toNat_append_eq_add]
  omega

@[simp] theorem wordAt_cons_zero (b0 b1 b2 b3 : Byte) (rest : List Byte) :
    wordAt (b0 :: b1 :: b2 :: b3 :: rest) 0 = wordOfBytes b0 b1 b2 b3 := rfl

@[simp] theorem wordAt_cons_succ (b0 b1 b2 b3 : Byte) (rest : List Byte) (k : Nat) :
    wordAt (b0 :: b1 :: b2 :: b3 :: rest) (k + 1) = wordAt rest k := rfl

@[simp] theorem length_fullWords (image : List Byte) : (fullWords image).length = image.length / 4 := by
  simp [fullWords]

theorem getD_fullWords {image : List Byte} {k : Nat} (hk : k < image.length / 4) :
    (fullWords image).getD k 0#32 = wordAt image k := by
  simp [fullWords, List.getD_eq_getElem?_getD, hk]

theorem fullWords_cons (b0 b1 b2 b3 : Byte) (rest : List Byte) :
    fullWords (b0 :: b1 :: b2 :: b3 :: rest) = wordOfBytes b0 b1 b2 b3 :: fullWords rest := by
  have hlen : (b0 :: b1 :: b2 :: b3 :: rest).length / 4 = rest.length / 4 + 1 := by
    simp only [List.length_cons]
    omega
  rw [fullWords, hlen, List.range_succ_eq_map, List.map_cons, List.map_map]
  rfl

/-- The conversion under the policy of the model: the length alone decides between the image's Words and the rejection
(R221, R222). -/
theorem imageWords_reject (image : List Byte) :
    imageWords .reject image = if image.length % 4 = 0 then .ok (fullWords image) else .error .partialWord := by
  match image with
  | [] | [_] | [_, _] | [_, _, _] => rfl
  | b0 :: b1 :: b2 :: b3 :: rest =>
    have hmod : (b0 :: b1 :: b2 :: b3 :: rest).length % 4 = rest.length % 4 := by
      simp only [List.length_cons]
      omega
    rw [imageWords, imageWords_reject rest, hmod, fullWords_cons]
    by_cases h : rest.length % 4 = 0
    · rw [if_pos h, if_pos h]
      rfl
    · rw [if_neg h, if_neg h]
      rfl

/-! ### What boot answers (R222) -/

/-- All that a boot can do: the two rejections of R222, or the reset values around the image's Words. -/
theorem boot_eq (image : List Byte) (sink : Bool) :
    boot image sink =
      if image.length % 4 = 0 then
        if Config.maxLength < image.length / 4 then .error .tooLong else .ok (bootState (fullWords image) sink)
      else .error .partialWord := by
  unfold boot Config.loaderTailPolicy
  rw [imageWords_reject]
  by_cases h : image.length % 4 = 0
  · simp only [if_pos h, length_fullWords]
  · simp only [if_neg h]

/-- A boot that is not rejected puts exactly the image's Words into array 0. -/
theorem eq_bootState_of_boot_ok {image : List Byte} {sink : Bool} {s : State} (h : boot image sink = .ok s) :
    s = bootState (fullWords image) sink := by
  obtain ⟨ws, hws, -, rfl⟩ := boot_eq_ok h
  rw [Config.loaderTailPolicy, imageWords_reject] at hws
  split at hws
  · cases hws
    rfl
  · cases hws

/-- Settles O48: of the three outcomes of `boot_eq`, each rejection is one of the two cases of R222. -/
theorem bootRejectsPartialAndOversizedImages : Obligations.BootRejectsPartialAndOversizedImages := by
  unfold Obligations.BootRejectsPartialAndOversizedImages
  intro image sink
  rw [boot_eq]
  by_cases hmod : image.length % 4 = 0
  · by_cases hlong : Config.maxLength < image.length / 4
    · rw [if_pos hmod, if_pos hlong]
      exact ⟨fun _ => .inr hlong, fun _ => ⟨_, rfl⟩⟩
    · rw [if_pos hmod, if_neg hlong]
      refine ⟨?_, ?_⟩
      · rintro ⟨_, he⟩
        cases he
      · rintro (hpartial | hover)
        · exact absurd hmod hpartial
        · exact absurd hover hlong
  · rw [if_neg hmod]
    exact ⟨fun _ => .inl hmod, fun _ => ⟨_, rfl⟩⟩

/-! ### The state after boot (R223) -/

@[simp] theorem find_bootState_zero (ws : List Word) (sink : Bool) :
    Memory.find (bootState ws sink).bank 0 = some (BankArray.ofWords ws) := rfl

theorem find_bootState_other {id : Nat} (hne : id ≠ 0) (ws : List Word) (sink : Bool) :
    Memory.find (bootState ws sink).bank id = none :=
  if_neg hne.symm

theorem word?_bootState {ws : List Word} {k : Nat} (hk : k < ws.length) (sink : Bool) :
    (bootState ws sink).word? 0 k = some (ws.getD k 0#32) :=
  (State.word?_eq_some_iff _ _ _ _).2 ⟨_, find_bootState_zero ws sink, hk, BankArray.word_ofWords ws k⟩

/-- Every register is 0 after boot (10_state.md R21). -/
@[simp] theorem reg_bootState (ws : List Word) (sink : Bool) (r : Reg) : (bootState ws sink).reg r = 0#32 := by
  cases r <;> rfl

/-- Settles O47: a boot that is not rejected ends in `bootState`, whose array 0 holds the image's Words. -/
theorem bootGivesTheResetValues : Obligations.BootGivesTheResetValues := by
  unfold Obligations.BootGivesTheResetValues
  intro image sink s hboot
  obtain rfl := eq_bootState_of_boot_ok hboot
  refine ⟨?length, fun k hk => ?word, fun id hid => ?absent, reg_bootState _ _, rfl, rfl, rfl, rfl, rfl, rfl, rfl⟩
  case length =>
    rw [State.len?_of_find (find_bootState_zero _ sink), BankArray.len_ofWords, length_fullWords]
  case word =>
    refine ⟨wordAt image k, ?_, toNat_wordOfBytes _ _ _ _⟩
    rw [word?_bootState (by rwa [length_fullWords]), getD_fullWords hk]
  case absent => exact (State.len?_eq_none_iff _ id).2 (find_bootState_other hid _ sink)

end Sys2Proof.Machine

/-! ## The words of the opcode table: every word decodes by its row, and no named bit is dropped -/

namespace Sys2Proof

/-! ### A word put together from its fields (30_encoding.md R71, R72, R83) -/

/-- The encoder undoes the fields of format S, up to the bits that a mask clears: the mask keeps the opcode, clears bits 27:9,
and each selector handed to the encoder is the word's own under the mask. -/
theorem encodeS_eq_and {w mask : Word} {a b c : BitVec 3} (hop : mask.extractLsb' 28 4 = 15#4)
    (hmid : mask.extractLsb' 9 19 = 0#19) (ha : a = w.extractLsb' 6 3 &&& mask.extractLsb' 6 3)
    (hb : b = w.extractLsb' 3 3 &&& mask.extractLsb' 3 3) (hc : c = w.extractLsb' 0 3 &&& mask.extractLsb' 0 3) :
    encodeS (opcodeField w) a b c = w &&& mask := by
  have fields : ∀ v : Word, v.extractLsb' 28 4 ++ v.extractLsb' 9 19 ++ v.extractLsb' 6 3 ++ v.extractLsb' 3 3 ++
      v.extractLsb' 0 3 = v := fun v => by
    simp only [BitVec.extractLsb'_append_extractLsb'_eq_extractLsb', BitVec.extractLsb'_eq_self]
  calc encodeS (opcodeField w) a b c
      = (w.extractLsb' 28 4 &&& mask.extractLsb' 28 4) ++ (w.extractLsb' 9 19 &&& mask.extractLsb' 9 19) ++ a ++ b ++ c := by
        rw [hop, hmid, BitVec.and_zero, show (15#4) = BitVec.allOnes 4 from rfl, BitVec.and_allOnes]
        rfl
    _ = w &&& mask := by
        rw [ha, hb, hc, ← BitVec.and_append, ← BitVec.and_append, ← BitVec.and_append, ← BitVec.and_append, fields, fields]

theorem and_seven (x : BitVec 3) : x &&& 7#3 = x := BitVec.and_allOnes

/-- Opcodes 0 to 6 name the three selectors. -/
theorem encodeS_fieldsABC (w : Word) :
    encodeS (opcodeField w) (selectorOfReg (fieldA w)) (selectorOfReg (fieldB w)) (selectorOfReg (fieldC w)) =
      w &&& 0xF00001FF#32 :=
  encodeS_eq_and rfl rfl ((selectorOfReg_regOfSelector _).trans (and_seven _).symm)
    ((selectorOfReg_regOfSelector _).trans (and_seven _).symm) ((selectorOfReg_regOfSelector _).trans (and_seven _).symm)

/-- Opcodes 8 and 12 name B and C. -/
theorem encodeS_fieldsBC (w : Word) :
    encodeS (opcodeField w) 0#3 (selectorOfReg (fieldB w)) (selectorOfReg (fieldC w)) = w &&& 0xF000003F#32 :=
  encodeS_eq_and rfl rfl BitVec.and_zero.symm ((selectorOfReg_regOfSelector _).trans (and_seven _).symm)
    ((selectorOfReg_regOfSelector _).trans (and_seven _).symm)

/-- Opcodes 9, 10 and 11 name C. -/
theorem encodeS_fieldC (w : Word) :
    encodeS (opcodeField w) 0#3 0#3 (selectorOfReg (fieldC w)) = w &&& 0xF0000007#32 :=
  encodeS_eq_and rfl rfl BitVec.and_zero.symm BitVec.and_zero.symm
    ((selectorOfReg_regOfSelector _).trans (and_seven _).symm)

theorem encodeS_zero (op : BitVec 4) : encodeS op 0#3 0#3 0#3 = encodeH op :=
  BitVec.eq_of_toNat_eq (by simp [toNat_encodeS, toNat_encodeH, Claims.encSValue])

/-- Opcodes 7, 14 and 15 name nothing but themselves. -/
theorem encodeH_opcodeField (w : Word) : encodeH (opcodeField w) = w &&& 0xF0000000#32 :=
  (encodeS_zero _).symm.trans (encodeS_eq_and rfl rfl BitVec.and_zero.symm BitVec.and_zero.symm BitVec.and_zero.symm)

/-- Opcode 13 names every bit. -/
theorem encodeI_fields {w : Word} (h : opcodeField w = 13#4) : encodeI (selectorOfReg (fieldA' w)) (fieldImm w) = w := by
  rw [encodeI, fieldA', selectorOfReg_regOfSelector, ← h]
  simp only [opcodeField, fieldImm, BitVec.extractLsb'_append_extractLsb'_eq_extractLsb', BitVec.extractLsb'_eq_self]

/-! ### Encoding a decoded word (R76, R83) -/

theorem opcodeField_eq_ofNat {w : Word} {n : Nat} (h : (opcodeField w).toNat = n) : opcodeField w = BitVec.ofNat 4 n := by
  rw [← h, BitVec.ofNat_toNat, BitVec.setWidth_eq]

/-- Opcode values 14 and 15 name no operand. -/
theorem namedBits_of_gt {op : BitVec 4} (h : 13 < op.toNat) : namedBits op = 0xF0000000#32 := by
  revert op
  decide

/-- The encoder writes the opcode value as a literal, which is the word's own opcode in the row the word decodes by. -/
theorem encode_decode (w : Word) : encode (decode w) = w &&& namedBits (opcodeField w) := by
  unfold decode
  split
  case h_1 h | h_2 h | h_3 h | h_4 h | h_5 h | h_6 h | h_7 h =>
    have hop := opcodeField_eq_ofNat h
    rw [encode, ← hop, encodeS_fieldsABC, hop]
    rfl
  case h_9 h | h_13 h =>
    have hop := opcodeField_eq_ofNat h
    rw [encode, ← hop, encodeS_fieldsBC, hop]
    rfl
  case h_10 h | h_11 h | h_12 h =>
    have hop := opcodeField_eq_ofNat h
    rw [encode, ← hop, encodeS_fieldC, hop]
    rfl
  case h_8 h =>
    have hop := opcodeField_eq_ofNat h
    rw [encode, ← hop, encodeH_opcodeField, hop]
    rfl
  case h_14 h =>
    have hop := opcodeField_eq_ofNat h
    rw [encode, encodeI_fields hop, hop]
    exact BitVec.and_allOnes.symm
  case h_15 =>
    have noRow : 13 < (opcodeField w).toNat := by
      simp only [imp_false] at *
      omega
    rw [encode, encodeH_opcodeField, namedBits_of_gt noRow]

/-- The opcode alone decides whether the decoded instruction is well formed, and all sixteen values give one that is. -/
theorem wellFormed_decode (w : Word) : WellFormed (decode w) = true := by
  have opcodes : ∀ op : BitVec 4, WellFormed (decode (encodeH op)) = true := by decide
  have congr : WellFormed (decode w) = WellFormed (decode (encodeH (opcodeField w))) := by
    unfold decode
    rw [opcodeField_encodeH]
    split <;> rfl
  exact congr.trans (opcodes _)

/-- Settles O2: the fields of the word, put back together row by row under the mask of the row's format. -/
theorem decodingKeepsEveryNamedBit : Obligations.DecodingKeepsEveryNamedBit := by
  unfold Obligations.DecodingKeepsEveryNamedBit
  exact fun w => ⟨encode_decode w, wellFormed_decode w⟩

/-! ### The rows of the table (R78) -/

/-- Whether a word is of a row of the table depends on its opcode alone. -/
theorem matches_encodeH_opcodeField {row : OpcodeRow} (h : row ∈ opcodeTable) (w : Word) :
    row.matches (encodeH (opcodeField w)) = row.matches w := by
  have hmask : ∀ r ∈ opcodeTable, 0xF0000000#32 &&& r.mask = r.mask := by decide
  rw [OpcodeRow.matches, encodeH_opcodeField, BitVec.and_assoc, hmask row h]
  rfl

theorem mnemonicOf_decode_congr {w w' : Word} (h : opcodeField w' = opcodeField w) :
    mnemonicOf (decode w') = mnemonicOf (decode w) := by
  unfold decode
  rw [h]
  split <;> rfl

/-- The claim for one word of each opcode value. -/
theorem one_row_of_opcode : ∀ op : BitVec 4, ∃ row ∈ opcodeTable, row.matches (encodeH op) = true ∧
    mnemonicOf (decode (encodeH op)) = row.mnemonic ∧
    ∀ row' ∈ opcodeTable, row'.matches (encodeH op) = true → row' = row := by
  decide

/-- Settles O4: the row and the mnemonic are the opcode's, and the sixteen opcode values have one row each. -/
theorem everyWordIsOfOneTableRow : Obligations.EveryWordIsOfOneTableRow := by
  unfold Obligations.EveryWordIsOfOneTableRow
  intro w
  obtain ⟨row, hrow, hmatches, hmnemonic, honly⟩ := one_row_of_opcode (opcodeField w)
  refine ⟨row, hrow, ?_, ?_, fun row' hrow' hmatches' => honly row' hrow' ?_⟩
  · rw [← matches_encodeH_opcodeField hrow, hmatches]
  · rw [← hmnemonic, mnemonicOf_decode_congr (opcodeField_encodeH _).symm]
  · rw [matches_encodeH_opcodeField hrow', hmatches']

/-- Settles O5: the decoder run on the fifteen words. -/
theorem specWordsDecode : Obligations.SpecWordsDecode := by
  unfold Obligations.SpecWordsDecode
  decide

end Sys2Proof

/-! ## What Allocation, Load Program, Input and the host's answer do, one lemma per outcome -/

namespace Sys2Proof.Machine

theorem regsKeptExcept_setReg (s : State) (r : Reg) (v : Word) : RegsKeptExcept [r] s (s.setReg r v) := fun r' hr' => by
  rw [State.reg_setReg, if_neg (List.ne_of_not_mem_cons hr')]

/-! ### Allocation (42_bank_management.md R134, R135) -/

theorem exec_alloc (b c : Reg) (s : State) :
    exec (.alloc b c) s =
      commit s ((alloc (s.reg c).toNat s).map fun r => r.2.setReg b (identifierWord r.1)) := rfl

theorem exec_alloc_of_met {s : State} (hn : s.next < Config.wordLimit) (hg : s.storageGrants ≠ some 0) (b c : Reg) :
    exec (.alloc b c) s = .next ((s.withNewArray (s.reg c).toNat).setReg b (identifierWord s.next)) := by
  rw [exec_alloc]
  rcases alloc_cases (s.reg c).toNat s with ⟨hout | hout, -⟩ | ⟨-, -, he⟩
  · exact absurd hout (Nat.not_le.2 hn)
  · exact absurd hout hg
  · rw [he]
    rfl

theorem exec_alloc_of_exhausted {s : State} (h : Config.wordLimit ≤ s.next ∨ s.storageGrants = some 0) (b c : Reg) :
    exec (.alloc b c) s = .next (raiseFatal .resourceExhausted s) := by
  rw [exec_alloc]
  rcases alloc_cases (s.reg c).toNat s with ⟨-, he⟩ | ⟨hn, hg, -⟩
  · rw [he]
    rfl
  · exact absurd h (not_or.2 ⟨Nat.not_le.2 hn, hg⟩)

/-- Settles O20: either condition is one in which `Alloc` raises the fatal condition. -/
theorem allocationCanExhaust : Obligations.AllocationCanExhaust := by
  unfold Obligations.AllocationCanExhaust
  exact fun b c s h => exec_alloc_of_exhausted (h.imp_left ge_of_eq) b c

theorem State.len?_withNewArray (s : State) (n id : Nat) :
    (s.withNewArray n).len? id = if id = s.next then some n else s.len? id := s.len?_put s.next id (BankArray.zeros n)

theorem State.word?_withNewArray (s : State) (n id off : Nat) :
    (s.withNewArray n).word? id off = if id = s.next then (if n ≤ off then none else some 0#32) else s.word? id off :=
  s.word?_put s.next id off (BankArray.zeros n)

theorem arraysKeptExcept_withNewArray (s : State) (n : Nat) : ArraysKeptExcept s.next s (s.withNewArray n) :=
  ⟨fun id off hne => by rw [State.word?_withNewArray, if_neg hne], fun id hne => by rw [State.len?_withNewArray, if_neg hne]⟩

/-- The refill from a pool that is not empty takes its smallest member, and leaves the others (R131). -/
theorem State.refill_withNewArray_of_pool {s : State} (hrise : s.pool.Pairwise (· < ·)) (hpool : s.pool ≠ []) (n : Nat) :
    (s.withNewArray n).next ∈ s.pool ∧ (∀ p ∈ s.pool, (s.withNewArray n).next ≤ p) ∧
      ∀ p, p ∈ (s.withNewArray n).pool ↔ p ∈ s.pool ∧ p ≠ (s.withNewArray n).next := by
  obtain ⟨p, rest, hcons⟩ := List.exists_cons_of_ne_nil hpool
  have hnext : (s.withNewArray n).next = p := by simp [State.withNewArray, refill, hcons]
  have hrest : (s.withNewArray n).pool = rest := by simp [State.withNewArray, refill, hcons]
  rw [hcons, List.pairwise_cons] at hrise
  rw [hnext, hrest, hcons]
  refine ⟨List.mem_cons_self, fun q hq => ?_, fun q => ⟨fun hq => ?_, fun ⟨hq, hne⟩ => ?_⟩⟩
  · rcases List.mem_cons.1 hq with rfl | hq
    · exact le_refl _
    · exact (hrise.1 q hq).le
  · exact ⟨List.mem_cons_of_mem _ hq, (hrise.1 q hq).ne'⟩
  · exact (List.mem_cons.1 hq).resolve_left hne

/-- The refill from an empty pool passes the occupied identifiers and stops at the first that is not (R131). -/
theorem State.refill_withNewArray_of_empty {s : State} (hn : s.next < Config.wordLimit) (hpool : s.pool = []) (n : Nat) :
    (s.withNewArray n).pool = [] ∧ s.next < (s.withNewArray n).next ∧
      (s.withNewArray n).next ≤ Config.wordLimit ∧
      (∀ id, s.next < id → id < (s.withNewArray n).next → s.len? id ≠ none) ∧
      ((s.withNewArray n).next < Config.wordLimit → s.len? (s.withNewArray n).next = none) := by
  have hnext : (s.withNewArray n).next = skipOccupied s.bank s.bank.length (s.next + 1) := by
    simp [State.withNewArray, refill, hpool]
  have hempty : (s.withNewArray n).pool = [] := by simp [State.withNewArray, refill, hpool]
  obtain ⟨habove, hlimit, hoccupied, hfree⟩ := skipOccupied_spec s.bank (Nat.succ_le_of_lt hn)
  rw [← hnext] at habove hlimit hoccupied hfree
  exact ⟨hempty, habove, hlimit, fun id hgt hlt => (s.len?_ne_none_iff_present id).2 (hoccupied id hgt hlt),
    fun hlt => (s.len?_eq_none_iff_absent _).2 (hfree hlt)⟩

/-- Settles O19: the new array is put under the next-candidate, and the refill takes the next one from the pool or from the
skip loop. -/
theorem allocationTakesTheNextCandidate : Obligations.AllocationTakesTheNextCandidate := by
  unfold Obligations.AllocationTakesTheNextCandidate
  intro b c s hn hg hrise
  refine ⟨_, exec_alloc_of_met hn hg b c, ?identifier, regsKeptExcept_setReg (s.withNewArray _) b _, rfl, ?length,
    fun off hoff => ?zero,
    arraysKeptExcept_withNewArray s _, rfl, ⟨rfl, rfl, rfl⟩, ⟨rfl, rfl⟩,
    fun hpool => State.refill_withNewArray_of_pool hrise hpool (s.reg c).toNat,
    fun hpool => State.refill_withNewArray_of_empty hn hpool (s.reg c).toNat⟩
  case identifier => rw [State.reg_setReg, if_pos rfl, toNat_identifierWord hn]
  case length => rw [State.len_setReg, State.len?_withNewArray, if_pos rfl]
  case zero => rw [State.word_setReg, State.word?_withNewArray, if_pos rfl, if_neg (Nat.not_le.2 hoff)]

/-! ### Load Program (44_program_and_immediate.md R170, R171) -/

theorem exec_loadprog_of_eq_zero {b : Reg} {s : State} (hb : s.reg b = 0#32) (c : Reg) :
    exec (.loadprog b c) s = .next (s.setPc (s.reg c)) := if_pos hb

theorem exec_loadprog_of_find {b : Reg} {s : State} {a : BankArray} (hb : s.reg b ≠ 0#32)
    (hfind : Memory.find s.bank (s.reg b).toNat = some a) (hg : s.storageGrants ≠ some 0) (c : Reg) :
    exec (.loadprog b c) s = .next ((s.withProgram a).setPc (s.reg c)) := by
  rw [exec_loadprog_of_ne_zero hb]
  rcases copyToProgram_cases (s.reg b).toNat s with ⟨hnone, -⟩ | ⟨-, -, hg0, -⟩ | ⟨a', hfind', -, he⟩
  · cases hnone.symm.trans hfind
  · exact absurd hg0 hg
  · cases hfind'.symm.trans hfind
    rw [he]
    rfl

theorem exec_loadprog_of_absent {b : Reg} {s : State} (hb : s.reg b ≠ 0#32)
    (hnone : s.len? (s.reg b).toNat = none) (c : Reg) :
    exec (.loadprog b c) s = .next (raiseFatal .loadNotFound s) := by
  rw [exec_loadprog_of_ne_zero hb, copyToProgram, (s.len?_eq_none_iff _).1 hnone]
  rfl

theorem exec_loadprog_of_refused {b : Reg} {s : State} (hb : s.reg b ≠ 0#32)
    (hsome : s.len? (s.reg b).toNat ≠ none) (hg : s.storageGrants = some 0) (c : Reg) :
    exec (.loadprog b c) s = .next (raiseFatal .resourceExhausted s) := by
  rw [exec_loadprog_of_ne_zero hb]
  rcases copyToProgram_cases (s.reg b).toNat s with ⟨hnone, -⟩ | ⟨-, -, -, he⟩ | ⟨-, -, hg', -⟩
  · exact absurd ((s.len?_eq_none_iff _).2 hnone) hsome
  · rw [he]
    rfl
  · exact absurd hg hg'

theorem arraysKeptExcept_withProgram (s : State) (a : BankArray) : ArraysKeptExcept 0 s (s.withProgram a) :=
  ⟨fun id off hne => (s.word?_put 0 id off a).trans (if_neg hne), fun id hne => (s.len?_put 0 id a).trans (if_neg hne)⟩

/-- Settles O34: the jump alone, the copy and the jump, and the two aborts in the order of R196. -/
theorem loadProgramReplacesAndJumps : Obligations.LoadProgramReplacesAndJumps := by
  unfold Obligations.LoadProgramReplacesAndJumps
  intro b c s
  refine ⟨fun hb => exec_loadprog_of_eq_zero hb c, fun n hb hlen hg => ?_, fun hb hnone => exec_loadprog_of_absent hb hnone c,
    fun hb hsome hg => exec_loadprog_of_refused hb hsome hg c⟩
  obtain ⟨a, hfind, -⟩ := (s.len?_eq_some_iff _ n).1 hlen
  exact ⟨_, exec_loadprog_of_find hb hfind hg c, rfl, (State.len?_withProgram hfind).trans hlen,
    State.word?_withProgram hfind, arraysKeptExcept_withProgram s a, fun _ _ => rfl, ⟨rfl, rfl⟩, rfl, ⟨rfl, rfl, rfl⟩,
    rfl, rfl⟩

/-- A Load Program leaves every array but array 0 as it was, whatever its outcome. -/
theorem word?_of_exec_loadprog {b c : Reg} {s t : State} (h : exec (.loadprog b c) s = .next t) {id : Nat} (hid : id ≠ 0)
    (off : Nat) : t.word? id off = s.word? id off := by
  by_cases hb : s.reg b = 0#32
  · rw [exec_loadprog_of_eq_zero hb] at h
    cases h
    rfl
  · rw [exec_loadprog_of_ne_zero hb] at h
    rcases copyToProgram_cases (s.reg b).toNat s with ⟨-, he⟩ | ⟨-, -, -, he⟩ | ⟨a, -, -, he⟩ <;>
      rw [he] at h <;> cases h
    · rfl
    · rfl
    · exact (arraysKeptExcept_withProgram s a).1 id off hid

/-! ### Array Amend and the reads after it (20_memory.md R60, R63, R66) -/

/-- All that an Array Amend can do: write one Word of a present array, or abort. -/
theorem exec_amend_cases {a b c : Reg} {s t : State} (h : exec (.amend a b c) s = .next t) :
    (∃ arr, Memory.find s.bank (s.reg a).toNat = some arr ∧ (s.reg b).toNat < arr.len ∧
      t = s.setBank (Memory.put s.bank (s.reg a).toNat (arr.setWord (s.reg b).toNat (s.reg c)))) ∨
    ∃ reason, t = raiseFatal reason s := by
  rw [exec_amend] at h
  rcases Memory.write_cases s.bank .amendNotFound .amendOutOfBounds (s.reg a).toNat (s.reg b).toNat (s.reg c) with
    ⟨-, he⟩ | ⟨-, -, -, he⟩ | ⟨arr, hfind, hoff, he⟩ <;> rw [he] at h <;> cases h
  · exact .inr ⟨_, rfl⟩
  · exact .inr ⟨_, rfl⟩
  · exact .inl ⟨arr, hfind, hoff, rfl⟩

/-- An Array Amend leaves every array but the one it names as it was, whatever its outcome. -/
theorem word?_of_exec_amend {a b c : Reg} {s t : State} (h : exec (.amend a b c) s = .next t) {id : Nat}
    (hid : id ≠ (s.reg a).toNat) (off : Nat) : t.word? id off = s.word? id off := by
  rcases exec_amend_cases h with ⟨arr, -, -, rfl⟩ | ⟨reason, rfl⟩
  · rw [State.word?_put, if_neg hid]
  · rfl

/-- An Array Amend that leaves the core Running has put `x[C]` at its address, and kept registers, `pc` and run state. -/
theorem exec_amend_completes {a b c : Reg} {s t : State} (h : exec (.amend a b c) s = .next t) (hrun : t.run = .running) :
    t.word? (s.reg a).toNat (s.reg b).toNat = some (s.reg c) ∧ t.pc = s.pc ∧ ∀ r, t.reg r = s.reg r := by
  rcases exec_amend_cases h with ⟨arr, -, hoff, rfl⟩ | ⟨reason, rfl⟩
  · exact ⟨s.word?_put_setWord_same _ hoff _, rfl, fun _ => rfl⟩
  · cases hrun

/-- Settles O36: each of the two writes is to an array other than the one read, and the copy itself wrote array 0 only. -/
theorem programCopyIsDeep : Obligations.ProgramCopyIsDeep := by
  unfold Obligations.ProgramCopyIsDeep
  intro b c d e f s t u hb hload hamend
  have hsource : (s.reg b).toNat ≠ 0 := Word.toNat_ne_zero hb
  refine ⟨fun hd off => ?_, fun hd off => ?_⟩
  · exact word?_of_exec_amend hamend (hd ▸ hsource.symm) off
  · have hkept : u.word? (s.reg b).toNat off = t.word? (s.reg b).toNat off :=
      word?_of_exec_amend hamend (by simpa [hd] using hsource) off
    exact hkept.trans (word?_of_exec_loadprog hload hsource off)

/-- Settles O38: the written Word is at the address that the same registers still name. -/
theorem amendedWordIsReadBack : Obligations.AmendedWordIsReadBack := by
  unfold Obligations.AmendedWordIsReadBack
  intro a b c d s t _ hamend hrun
  obtain ⟨hword, -, hregs⟩ := exec_amend_completes hamend hrun
  exact ⟨_, exec_index_of_word (by rw [hregs a, hregs b, hword]) d, onlyRegisterWritten_setReg d _ t⟩

/-- Settles O39: the address written is the one that the next fetch reads. -/
theorem selfModificationIsSeenByTheNextFetch : Obligations.SelfModificationIsSeenByTheNextFetch := by
  unfold Obligations.SelfModificationIsSeenByTheNextFetch
  intro a b c s t _ ha hb hamend hrun
  obtain ⟨hword, hpc, -⟩ := exec_amend_completes hamend hrun
  rw [ha, hb, ← hpc] at hword
  exact step_of_word hrun hword

/-! ### Accesses that abort (R62, R136) -/

/-- A Deallocation that leaves the core Running has removed the array, not array 0, that its register still names. -/
theorem exec_free_completes {c : Reg} {s t : State} (h : exec (.free c) s = .next t) (hrun : t.run = .running) :
    (t.reg c).toNat ≠ 0 ∧ t.len? (t.reg c).toNat = none := by
  rw [exec_free] at h
  rcases free_cases (s.reg c).toNat s with ⟨-, he⟩ | ⟨-, -, he⟩ | ⟨h0, -, he⟩ <;> rw [he] at h <;> cases h
  · cases hrun
  · cases hrun
  · exact ⟨h0, (s.len?_withoutArray _ _).trans (if_pos rfl)⟩

/-- Settles O24: the register holds an identifier that is not 0 and names no array, which is what each access checks first. -/
theorem staleIdentifierAborts : Obligations.StaleIdentifierAborts := by
  unfold Obligations.StaleIdentifierAborts
  intro a b c s t hfree hrun
  obtain ⟨h0, hnone⟩ := exec_free_completes hfree hrun
  have hc : t.reg c ≠ 0#32 := fun hzero => h0 (congrArg BitVec.toNat hzero)
  exact ⟨exec_index_of_absent hnone a b, exec_amend_of_absent hnone a b,
    exec_free_of_absent h0 ((t.len?_eq_none_iff_absent _).1 hnone), exec_loadprog_of_absent hc hnone a⟩

/-- Settles O25: every offset is at or beyond the length 0. -/
theorem emptyArrayAccessAborts : Obligations.EmptyArrayAccessAborts := by
  unfold Obligations.EmptyArrayAccessAborts
  exact fun a b c s => ⟨fun hlen => exec_index_of_len_le hlen (Nat.zero_le _) a,
    fun hlen => exec_amend_of_len_le hlen (Nat.zero_le _) c⟩

/-! ### Input and the host's answer (43_io.md R153, R160, R161) -/

theorem exec_inp (c : Reg) (s : State) :
    exec (.inp c) s = .next
      { s with
        trace := s.trace ++ (if s.dedicatedSink then [.inReq] else [.flush, .inReq])
        run := .awaitInput c } :=
  congrArg Host.Outcome.next (requestInput_flushBeforeRead c s)

/-- Settles O27: the request adds the events that the sink configuration gives it, and sets the run state. -/
theorem inputRequestsAByte : Obligations.InputRequestsAByte := by
  unfold Obligations.InputRequestsAByte
  intro c s
  refine ⟨_, exec_inp c s, rfl, rfl, fun hsink => ?_, fun hsink => ?_, rfl, rfl, rfl, fun _ _ => rfl, rfl,
    ⟨fun _ _ => rfl, fun _ => rfl⟩, ⟨rfl, rfl⟩, rfl⟩
  · simp [hsink]
  · simp [hsink]

theorem step_of_waiting {c : Reg} {s : State} (h : s.run = .awaitInput c) : step s = .next (awaitAnswer c s) := by
  simp only [step, h]

/-- Settles O30: with no answer ready, `awaitAnswer` answers its own state. -/
theorem waitWithoutAnswerChangesNothing : Obligations.WaitWithoutAnswerChangesNothing := by
  unfold Obligations.WaitWithoutAnswerChangesNothing
  intro c s hwait hnone
  rw [step_of_waiting hwait, awaitAnswer, hnone]

/-- The state after a waiting Input has taken the answer `a`, with the answers `rest` still ready. -/
def State.withAnswer (s : State) (c : Reg) (a : Answer) (rest : List Answer) : State :=
  receiveAnswer c a { s with hostAnswers := rest }

theorem step_of_answer_ready {c : Reg} {a : Answer} {rest : List Answer} {s : State} (hwait : s.run = .awaitInput c)
    (hready : s.hostAnswers = a :: rest) : step s = .next (s.withAnswer c a rest) := by
  rw [step_of_waiting hwait, awaitAnswer, hready]
  rfl

@[simp] theorem State.reg_withAnswer (s : State) (c : Reg) (a : Answer) (rest : List Answer) (r : Reg) :
    (s.withAnswer c a rest).reg r = if r = c then answerWord a else s.reg r :=
  State.reg_setReg _ c r (answerWord a)

theorem regsKeptExcept_withAnswer (s : State) (c : Reg) (a : Answer) (rest : List Answer) :
    RegsKeptExcept [c] s (s.withAnswer c a rest) :=
  regsKeptExcept_setReg (s.send (.answer a)) c (answerWord a)

/-- The waiting register holds the byte zero-extended (R160). -/
theorem State.toNat_reg_withAnswer_byte {s : State} {c : Reg} {a : Answer} {rest : List Answer} {b : Byte}
    (h : a = .byte b) : ((s.withAnswer c a rest).reg c).toNat = b.toNat := by
  rw [State.reg_withAnswer, if_pos rfl, h]
  exact BitVec.toNat_setWidth_of_le (by decide)

theorem State.reg_withAnswer_endOfStream {s : State} {c : Reg} {a : Answer} {rest : List Answer} (h : a = .endOfStream) :
    (s.withAnswer c a rest).reg c = 0xFFFFFFFF#32 := by
  rw [State.reg_withAnswer, if_pos rfl, h]
  rfl

/-- Settles O28: the step of the wait is `State.withAnswer`, which writes the waiting register, the run state and the channel
fields. -/
theorem answerCompletesInput : Obligations.AnswerCompletesInput := by
  unfold Obligations.AnswerCompletesInput
  intro c a rest s hwait hready
  exact ⟨_, step_of_answer_ready hwait hready, rfl, rfl, rfl, rfl, fun _ => State.toNat_reg_withAnswer_byte,
    State.reg_withAnswer_endOfStream, regsKeptExcept_withAnswer s c a rest, rfl, ⟨fun _ _ => rfl, fun _ => rfl⟩,
    ⟨rfl, rfl⟩, rfl, rfl, rfl⟩

/-- Settles O29: the request leaves the ready answers as they were, so the next step takes the first of them. -/
theorem inputReadsTheAnswer : Obligations.InputReadsTheAnswer := by
  unfold Obligations.InputReadsTheAnswer
  intro c a rest s hready
  refine ⟨_, _, exec_inp c s, step_of_answer_ready rfl hready, fun _ => State.toNat_reg_withAnswer_byte,
    State.reg_withAnswer_endOfStream, regsKeptExcept_withAnswer _ c a rest, rfl, ⟨fun _ _ => rfl, fun _ => rfl⟩,
    ⟨rfl, rfl⟩, rfl, rfl, rfl, rfl, rfl, ?trace⟩
  case trace =>
    show s.trace ++ (if s.dedicatedSink then [Event.inReq] else [.flush, .inReq]) ++ [Event.answer a] = _
    by_cases hsink : s.dedicatedSink = true <;> simp [hsink]

end Sys2Proof.Machine

/-! ## The sink configuration shows only as flushes (43_io.md R161) -/

namespace Sys2Proof.Machine

/-! ### One instruction under another sink configuration -/

/-- The state with another sink configuration and another trace: the states that `SameButFlushes` relates to it differ so. -/
def State.rechannel (s : State) (sink : Bool) (es : List Event) : State := { s with dedicatedSink := sink, trace := es }

@[simp] theorem State.rechannel_run (s : State) (sink : Bool) (es : List Event) : (s.rechannel sink es).run = s.run := rfl

theorem State.rechannel_self (s : State) : s.rechannel s.dedicatedSink s.trace = s := rfl

theorem withoutFlushes_append (es fs : List Event) :
    withoutFlushes (es ++ fs) = withoutFlushes es ++ withoutFlushes fs := List.filter_append ..

/-- Run with any sink configuration and trace in place of those of `s`, the function `f` answers `s'` with the same sink
configuration and with new events, which are the same for both configurations but for the flushes. -/
def AnswersAlike (f : State → Result) (s s' : State) : Prop :=
  ∃ events : Bool → List Event, (∀ sink sink', withoutFlushes (events sink) = withoutFlushes (events sink')) ∧
    ∀ sink es, f (s.rechannel sink es) = .next (s'.rechannel sink (es ++ events sink))

/-- A function that adds no event needs the sink configuration and the trace for nothing. -/
theorem AnswersAlike.of_no_event {f : State → Result} {s s' : State}
    (h : ∀ sink es, f (s.rechannel sink es) = .next (s'.rechannel sink es)) : AnswersAlike f s s' :=
  ⟨fun _ => [], fun _ _ => rfl, fun sink es => by rw [h, List.append_nil]⟩

/-- Every instruction answers a next state, alike under both sink configurations: only Input reads the configuration, and for
its Flush alone. -/
theorem exec_answersAlike (i : Instr) (s : State) : ∃ s', AnswersAlike (exec i) s s' := by
  cases i with
  | cmov a b c =>
    by_cases hc : s.reg c = 0#32
    · exact ⟨s, .of_no_event fun k es => exec_cmov_of_eq_zero (s := s.rechannel k es) hc a b⟩
    · exact ⟨s.setReg a (s.reg b), .of_no_event fun k es => exec_cmov_of_ne_zero (s := s.rechannel k es) hc a b⟩
  | index a b c =>
    cases hlen : s.len? (s.reg b).toNat with
    | none =>
      exact ⟨raiseFatal .indexNotFound s, .of_no_event fun k es => exec_index_of_absent (s := s.rechannel k es) hlen a c⟩
    | some n =>
      by_cases hoff : n ≤ (s.reg c).toNat
      · exact ⟨raiseFatal .indexOutOfBounds s,
          .of_no_event fun k es => exec_index_of_len_le (s := s.rechannel k es) hlen hoff a⟩
      · obtain ⟨arr, hfind, rfl⟩ := (s.len?_eq_some_iff _ n).1 hlen
        have hword := (State.word?_of_find hfind (s.reg c).toNat).trans (if_neg hoff)
        exact ⟨s.setReg a (arr.word (s.reg c).toNat),
          .of_no_event fun k es => exec_index_of_word (s := s.rechannel k es) hword a⟩
  | amend a b c =>
    cases hlen : s.len? (s.reg a).toNat with
    | none =>
      exact ⟨raiseFatal .amendNotFound s, .of_no_event fun k es => exec_amend_of_absent (s := s.rechannel k es) hlen b c⟩
    | some n =>
      by_cases hoff : n ≤ (s.reg b).toNat
      · exact ⟨raiseFatal .amendOutOfBounds s,
          .of_no_event fun k es => exec_amend_of_len_le (s := s.rechannel k es) hlen hoff c⟩
      · obtain ⟨arr, hfind, rfl⟩ := (s.len?_eq_some_iff _ n).1 hlen
        exact ⟨s.setBank (Memory.put s.bank (s.reg a).toNat (arr.setWord (s.reg b).toNat (s.reg c))),
          .of_no_event fun k es => exec_amend_of_find (s := s.rechannel k es) hfind (Nat.not_le.1 hoff) c⟩
  | add a b c => exact ⟨s.setReg a (addWords (s.reg b) (s.reg c)), .of_no_event fun _ _ => exec_add a b c _⟩
  | mul a b c => exact ⟨s.setReg a (mulWords (s.reg b) (s.reg c)), .of_no_event fun _ _ => exec_mul a b c _⟩
  | div a b c =>
    by_cases hc : s.reg c = 0#32
    · exact ⟨raiseFatal .divisionByZero s, .of_no_event fun k es => exec_div_of_eq_zero (s := s.rechannel k es) hc a b⟩
    · exact ⟨s.setReg a (s.reg b / s.reg c),
        .of_no_event fun k es => exec_div_of_ne_zero (s := s.rechannel k es) hc a b⟩
  | nand a b c => exact ⟨s.setReg a (nandWords (s.reg b) (s.reg c)), .of_no_event fun _ _ => exec_nand a b c _⟩
  | halt => exact ⟨s.setRun .halted, .of_no_event fun _ _ => exec_halt _⟩
  | alloc b c =>
    by_cases hout : Config.wordLimit ≤ s.next ∨ s.storageGrants = some 0
    · exact ⟨raiseFatal .resourceExhausted s,
        .of_no_event fun k es => exec_alloc_of_exhausted (s := s.rechannel k es) hout b c⟩
    · obtain ⟨hn, hg⟩ := not_or.1 hout
      exact ⟨(s.withNewArray (s.reg c).toNat).setReg b (identifierWord s.next),
        .of_no_event fun k es => exec_alloc_of_met (s := s.rechannel k es) (Nat.not_le.1 hn) hg b c⟩
  | free c =>
    by_cases h0 : (s.reg c).toNat = 0
    · exact ⟨raiseFatal .freeZero s, .of_no_event fun _ _ => exec_free_of_zero h0⟩
    · cases hp : Memory.present s.bank (s.reg c).toNat with
      | false => exact ⟨raiseFatal .freeNotFound s, .of_no_event fun _ _ => exec_free_of_absent h0 hp⟩
      | true => exact ⟨s.withoutArray (s.reg c).toNat, .of_no_event fun _ _ => exec_free_of_present h0 hp⟩
  | out c =>
    by_cases hle : (s.reg c).toNat ≤ 255
    · exact ⟨{ s with outStaging := none }, fun _ => [.out ((s.reg c).extractLsb' 0 8)], fun _ _ => rfl,
        fun _ _ => exec_out_of_le hle⟩
    · exact ⟨raiseFatal .outputOutOfRange s, .of_no_event fun _ _ => exec_out_of_gt (Nat.not_le.1 hle)⟩
  | inp c =>
    exact ⟨s.setRun (.awaitInput c), fun sink => if sink then [.inReq] else [.flush, .inReq], by decide,
      fun _ _ => exec_inp c _⟩
  | loadprog b c =>
    by_cases hb : s.reg b = 0#32
    · exact ⟨s.setPc (s.reg c), .of_no_event fun k es => exec_loadprog_of_eq_zero (s := s.rechannel k es) hb c⟩
    · cases hfind : Memory.find s.bank (s.reg b).toNat with
      | none =>
        have hnone := (s.len?_eq_none_iff _).2 hfind
        exact ⟨raiseFatal .loadNotFound s,
          .of_no_event fun k es => exec_loadprog_of_absent (s := s.rechannel k es) hb hnone c⟩
      | some arr =>
        by_cases hg : s.storageGrants = some 0
        · have hsome : s.len? (s.reg b).toNat ≠ none := by simp [State.len?_of_find hfind]
          exact ⟨raiseFatal .resourceExhausted s,
            .of_no_event fun k es => exec_loadprog_of_refused (s := s.rechannel k es) hb hsome hg c⟩
        · exact ⟨(s.withProgram arr).setPc (s.reg c),
            .of_no_event fun k es => exec_loadprog_of_find (s := s.rechannel k es) hb hfind hg c⟩
  | li a imm => exact ⟨s.setReg a (immediateWord imm), .of_no_event fun _ _ => exec_li a imm _⟩
  | haltUndef op => exact ⟨s.setRun .halted, .of_no_event fun _ _ => exec_haltUndef op _⟩

/-- Settles O9: the next state that `exec_answersAlike` gives under the state's own sink configuration and trace. -/
theorem everyInstructionAnswersANextState : Obligations.EveryInstructionAnswersANextState := by
  unfold Obligations.EveryInstructionAnswersANextState
  intro i s
  obtain ⟨s', events, -, hexec⟩ := exec_answersAlike i s
  exact ⟨_, hexec s.dedicatedSink s.trace⟩

/-! ### One step under another sink configuration -/

/-- A step of the wait adds the answer it takes, if there is one, under either configuration. -/
theorem awaitAnswer_answersAlike (c : Reg) (s : State) :
    ∃ s', AnswersAlike (fun u => .next (awaitAnswer c u)) s s' := by
  cases hready : s.hostAnswers with
  | nil => exact ⟨s, .of_no_event fun sink es => by simp only [awaitAnswer, State.rechannel, hready]⟩
  | cons a rest =>
    refine ⟨s.withAnswer c a rest, fun _ => [.answer a], fun _ _ => rfl, fun sink es => ?_⟩
    simp only [awaitAnswer, State.rechannel, hready]
    rfl

/-- A step stops with the same fault under both sink configurations, or answers alike under both. -/
theorem step_answersAlike (s : State) :
    (∃ why, ∀ sink es, step (s.rechannel sink es) = .fault why) ∨ ∃ s', AnswersAlike step s s' := by
  cases hrun : s.run with
  | running =>
    have hstep : ∀ sink es, step (s.rechannel sink es) = stepRunning (s.rechannel sink es) := fun sink es =>
      step_of_running hrun
    have hfetch : ∀ sink es, fetch (s.rechannel sink es) = fetch s := fun _ _ => rfl
    cases hf : fetch s with
    | word w =>
      obtain ⟨s', events, halike, hexec⟩ := exec_answersAlike (decode w) s.advancePc
      refine .inr ⟨s', events, halike, fun sink es => ?_⟩
      rw [hstep, stepRunning, hfetch, hf]
      exact hexec sink es
    | outOfBounds =>
      refine .inr ⟨raiseFatal .fetchOutOfBounds s, .of_no_event fun sink es => ?_⟩
      rw [hstep, stepRunning_of_outOfBounds ((hfetch sink es).trans hf)]
      rfl
    | programAbsent =>
      refine .inl ⟨.programAbsent, fun sink es => ?_⟩
      rw [hstep, stepRunning, hfetch, hf]
  | awaitInput c =>
    obtain ⟨s', events, halike, hawait⟩ := awaitAnswer_answersAlike c s
    refine .inr ⟨s', events, halike, fun sink es => ?_⟩
    exact (step_of_waiting (s := s.rechannel sink es) hrun).trans (hawait sink es)
  | halted => exact .inl ⟨.halted, fun sink es => by simp [step, hrun]⟩
  | aborted reason => exact .inl ⟨.aborted reason, fun sink es => by simp [step, hrun]⟩

/-- Settles O33: both states are one state under two sink configurations and two traces that agree but for the flushes, and
a step adds to both the same events but for the flushes. -/
theorem sinkConfigurationShowsOnlyAsFlushes : Obligations.SinkConfigurationShowsOnlyAsFlushes := by
  unfold Obligations.SinkConfigurationShowsOnlyAsFlushes
  rintro s t ⟨htrace, ht⟩
  have ht : t = s.rechannel t.dedicatedSink t.trace := ht
  rcases step_answersAlike s with ⟨why, hfault⟩ | ⟨u, events, halike, hnext⟩
  · have hs := hfault s.dedicatedSink s.trace
    rw [State.rechannel_self] at hs
    rw [ht, hs, hfault]
    exact ⟨fun _ h => absurd h (by simp), fun _ h => h⟩
  · have hs := hnext s.dedicatedSink s.trace
    have ht' := hnext t.dedicatedSink t.trace
    rw [State.rechannel_self] at hs
    rw [← ht] at ht'
    rw [hs, ht']
    refine ⟨fun s' h => ?_, fun _ h => absurd h (by simp)⟩
    cases h
    refine ⟨_, rfl, ?_, rfl⟩
    show withoutFlushes (t.trace ++ events t.dedicatedSink) = withoutFlushes (s.trace ++ events s.dedicatedSink)
    rw [withoutFlushes_append, withoutFlushes_append, htrace, halike t.dedicatedSink s.dedicatedSink]

end Sys2Proof.Machine

/-! ## What a step keeps: the sink configuration, `pc`, the arrays, and the place of a fault -/

namespace Sys2Proof.Machine

/-- Settles O6: `step_of_word`, with the decoded instruction named. -/
theorem stepRunsTheFetchedInstruction : Obligations.StepRunsTheFetchedInstruction := by
  unfold Obligations.StepRunsTheFetchedInstruction
  rintro s w i hrun hword rfl
  exact step_of_word hrun hword

/-! ### The sink configuration and `pc` (10_state.md R25, R39) -/

theorem Effect.keeps_dedicatedSink {i : Instr} {s t : State} (h : Effect i s t) : t.dedicatedSink = s.dedicatedSink := by
  cases h <;> rfl

@[simp] theorem awaitAnswer_dedicatedSink (c : Reg) (s : State) : (awaitAnswer c s).dedicatedSink = s.dedicatedSink := by
  rcases awaitAnswer_cases c s with ⟨-, he⟩ | ⟨a, rest, -, he⟩ <;> rw [he]

/-- Settles O32: no effect of an instruction, and neither other kind of step, writes the configuration. -/
theorem sinkConfigurationIsFixed : Obligations.SinkConfigurationIsFixed := by
  unfold Obligations.SinkConfigurationIsFixed
  intro s t h
  rcases step_cases h with ⟨w, -, -, hexec⟩ | ⟨a, -, -, -, rfl⟩ | ⟨c, -, rfl⟩
  · exact (exec_effect hexec).keeps_dedicatedSink
  · rfl
  · exact awaitAnswer_dedicatedSink c s

/-- The two effects that write `pc` are Load Program's. -/
theorem Effect.keeps_pc {i : Instr} {s t : State} (h : Effect i s t) (hi : ∀ b c, i ≠ .loadprog b c) : t.pc = s.pc := by
  cases h with
  | unchanged | register | amended | allocated | freed | emitted | requested | halted | aborted => rfl
  | jumped b c hload => exact absurd hload (hi b c)
  | replaced b c _ hload => exact absurd hload (hi b c)

/-- Settles O42: the fetch advances `pc`, and the instruction keeps it. -/
theorem onlyLoadProgramWritesPc : Obligations.OnlyLoadProgramWritesPc := by
  unfold Obligations.OnlyLoadProgramWritesPc
  rintro s t w ⟨hrun, hword⟩ hnot hstep
  rw [step_of_word hrun hword] at hstep
  exact (exec_effect hstep).keeps_pc hnot

/-! ### The arrays (10_state.md R31, R33) -/

/-- An array keeps its length through an instruction: Allocation makes a new one, since the next-candidate is unused, and Load
Program replaces only array 0. -/
theorem Effect.keeps_length {i : Instr} {s t : State} (h : Effect i s t) (hinv : AllocatorInv s) {id n m : Nat}
    (hs : s.len? id = some n) (ht : t.len? id = some m) : m = n ∨ (id = 0 ∧ ∃ b c, i = .loadprog b c) := by
  have same : t.len? id = s.len? id → m = n := fun heq => Option.some.inj (ht.symm.trans (heq.trans hs))
  cases h with
  | unchanged | register | jumped | emitted | requested | halted | aborted => exact .inl (same rfl)
  | amended j off v a hfind _ => exact .inl (same ((memoryKeptExcept_put_setWord hfind off v).2 id))
  | allocated b c _ hn _ =>
    refine .inl (same ((arraysKeptExcept_withNewArray s (s.reg c).toNat).2 id fun heq => ?_))
    have hnone := (s.len?_eq_none_iff_absent _).2 (hinv.next_unused hn)
    rw [← heq, hs] at hnone
    cases hnone
  | freed c _ _ _ =>
    refine .inl (same ((arraysKeptExcept_withoutArray s (s.reg c).toNat).2 id fun heq => ?_))
    rw [heq] at ht
    cases ((s.len?_withoutArray _ _).trans (if_pos rfl)).symm.trans ht
  | replaced b c a hi _ _ _ =>
    by_cases h0 : id = 0
    · exact .inr ⟨h0, b, c, hi⟩
    · exact .inl (same ((arraysKeptExcept_withProgram s a).2 id h0))

/-- Settles O40: the instruction that ran keeps the lengths, and the other kinds of step keep the whole bank. -/
theorem arrayLengthsAreFixed : Obligations.ArrayLengthsAreFixed := by
  unfold Obligations.ArrayLengthsAreFixed
  intro s t id n m hinv hstep hs ht
  rcases step_cases hstep with ⟨w, hrun, hword, hexec⟩ | ⟨a, -, -, -, rfl⟩ | ⟨c, -, rfl⟩
  · have hadv : AllocatorInv s.advancePc := hinv.allocator.congr (fun _ _ => rfl) rfl rfl
    rcases (exec_effect hexec).keeps_length hadv hs ht with hlen | ⟨h0, b, c, hload⟩
    · exact .inl hlen
    · exact .inr ⟨h0, w, b, c, ⟨hrun, hword⟩, hload⟩
  · exact .inl (Option.some.inj (ht.symm.trans hs))
  · rw [State.len_congr (awaitAnswer_bank c s)] at ht
    exact .inl (Option.some.inj (ht.symm.trans hs))

/-- Which arrays other than array 0 an instruction makes or removes: Allocation may make one, and Deallocation removes the
one it names. -/
theorem Effect.len?_changes {i : Instr} {s t : State} (h : Effect i s t) {id : Nat} (hid : id ≠ 0) :
    (s.len? id = none → t.len? id ≠ none → ∃ b c, i = .alloc b c) ∧
    (s.len? id ≠ none → t.len? id = none → ∃ c, i = .free c ∧ (s.reg c).toNat = id) := by
  have kept : t.len? id = s.len? id →
      (s.len? id = none → t.len? id ≠ none → ∃ b c, i = .alloc b c) ∧
      (s.len? id ≠ none → t.len? id = none → ∃ c, i = .free c ∧ (s.reg c).toNat = id) := fun heq =>
    ⟨fun hs ht => absurd (heq.trans hs) ht, fun hs ht => absurd (heq.symm.trans ht) hs⟩
  cases h with
  | unchanged | register | jumped | emitted | requested | halted | aborted => exact kept rfl
  | amended j off v a hfind _ => exact kept ((memoryKeptExcept_put_setWord hfind off v).2 id)
  | replaced b c a _ _ _ _ => exact kept ((arraysKeptExcept_withProgram s a).2 id hid)
  | allocated b c hi _ _ =>
    refine ⟨fun _ _ => ⟨b, c, hi⟩, fun hs ht => ?_⟩
    have hlen := s.len?_withNewArray (s.reg c).toNat id
    by_cases hnew : id = s.next
    · rw [if_pos hnew] at hlen
      cases hlen.symm.trans ht
    · rw [if_neg hnew] at hlen
      exact absurd (hlen.symm.trans ht) hs
  | freed c hi _ _ =>
    by_cases hfreed : (s.reg c).toNat = id
    · refine ⟨fun hs ht => absurd ?_ ht, fun _ _ => ⟨c, hi, hfreed⟩⟩
      exact (s.len?_withoutArray _ id).trans (if_pos hfreed.symm)
    · exact kept ((arraysKeptExcept_withoutArray s _).2 id (Ne.symm hfreed))

/-- Settles O41: the instruction that ran made or removed the array, since the other kinds of step keep the whole bank. -/
theorem onlyAllocationCreatesAndOnlyFreeDestroys : Obligations.OnlyAllocationCreatesAndOnlyFreeDestroys := by
  unfold Obligations.OnlyAllocationCreatesAndOnlyFreeDestroys
  intro s t id hid hstep
  rcases step_cases hstep with ⟨w, hrun, hword, hexec⟩ | ⟨a, -, -, -, rfl⟩ | ⟨c, -, rfl⟩
  · obtain ⟨made, removed⟩ := (exec_effect hexec).len?_changes hid
    refine ⟨fun hs ht => ?_, fun hs ht => ?_⟩
    · obtain ⟨b, c, hi⟩ := made hs ht
      exact ⟨w, b, c, ⟨hrun, hword⟩, hi⟩
    · obtain ⟨c, hi, hc⟩ := removed hs ht
      exact ⟨w, c, ⟨hrun, hword⟩, hi, hc⟩
  · exact ⟨fun hs ht => absurd hs ht, fun hs ht => absurd ht hs⟩
  · rw [State.len_congr (awaitAnswer_bank c s)]
    exact ⟨fun hs ht => absurd hs ht, fun hs ht => absurd ht hs⟩

/-! ### The place of a fault (60_exceptions.md R191, R193) -/

/-- Settles O45: a fetch fault keeps `pc`, and the others keep the advanced one. -/
theorem faultingInstructionIsFound : Obligations.FaultingInstructionIsFound := by
  unfold Obligations.FaultingInstructionIsFound
  intro s t reason hstep habort
  rcases step_eq_raiseFatal_of_aborted hstep habort with ⟨hfetch, rfl⟩ | ⟨hfetch, rfl⟩
  · exact ⟨congrArg some (if_pos hfetch), rfl⟩
  · refine ⟨congrArg some ((if_neg hfetch).trans ?_), rfl⟩
    exact BitVec.add_sub_cancel s.pc 1#32

/-- The codes number the reasons in the order of their constructors, from 1 on. -/
theorem FatalReason.code_eq (r : FatalReason) : r.code = r.ctorIdx + 1 := by
  cases r <;> rfl

theorem FatalReason.code_injective {r r' : FatalReason} (h : r.code = r'.code) : r = r' := by
  rw [FatalReason.code_eq, FatalReason.code_eq, Nat.add_right_cancel_iff] at h
  rw [← FatalReason.ofNat_ctorIdx r, h, FatalReason.ofNat_ctorIdx]

/-- Settles O46: the table entry by entry, and the codes number the constructors. -/
theorem reasonCodesAreTheTables : Obligations.ReasonCodesAreTheTables := by
  unfold Obligations.ReasonCodesAreTheTables
  exact ⟨rfl, rfl, rfl, rfl, rfl, rfl, rfl, rfl, rfl, rfl, rfl, fun _ _ => FatalReason.code_injective⟩

end Sys2Proof.Machine

/-! ## The invariant of the machine: at boot, over a step, and what it gives -/

namespace Sys2Proof.Machine

/-! ### At boot (70_reset_and_hazards.md R223) -/

theorem wf_bootState {ws : List Word} (h : ws.length ≤ Config.maxLength) (sink : Bool) :
    Memory.wf (bootState ws sink).bank = true := by
  have hempty : Memory.wf [] = true := rfl
  exact Memory.wf_put hempty (by decide : 0 < Config.wordLimit) (BankArray.wf_ofWords (Nat.lt_succ_of_le h))

theorem machineInv_bootState {ws : List Word} (h : ws.length ≤ Config.maxLength) (sink : Bool) :
    MachineInv (bootState ws sink) where
  bank_wf := wf_bootState h sink
  program_present := bootState_program_present ws sink
  allocator := allocatorInv_bootState ws sink
  staging_empty := rfl

/-- Settles O51: a boot that is not rejected ends in `bootState` with no more Words than array 0 can hold. -/
theorem invariantHoldsAfterBoot : Obligations.InvariantHoldsAfterBoot := by
  unfold Obligations.InvariantHoldsAfterBoot
  intro image sink s hboot
  obtain ⟨ws, -, hlen, rfl⟩ := boot_eq_ok hboot
  exact machineInv_bootState hlen sink

/-- Settles O49: the empty image has no Words, and passes both checks. -/
theorem resetIsTheBootOfTheEmptyImage : Obligations.ResetIsTheBootOfTheEmptyImage := by
  unfold Obligations.ResetIsTheBootOfTheEmptyImage
  rfl

/-- Settles O50: `State.reset` is a state after boot. -/
theorem invariantHoldsAtReset : Obligations.InvariantHoldsAtReset := by
  unfold Obligations.InvariantHoldsAtReset
  exact invariantHoldsAfterBoot [] false State.reset resetIsTheBootOfTheEmptyImage

/-! ### Over a step -/

/-- Every instruction keeps the bank's canonical form: an array is put with Words inside its length and under an identifier
that is a Word. -/
theorem Effect.keeps_wf {i : Instr} {s t : State} (h : Effect i s t) (hwf : Memory.wf s.bank = true) :
    Memory.wf t.bank = true := by
  cases h with
  | unchanged | register | jumped | emitted | requested | halted | aborted => exact hwf
  | amended id off v a hfind hoff =>
    obtain ⟨ha, hid⟩ := Memory.wf_find hwf hfind
    exact Memory.wf_put hwf hid (BankArray.wf_setWord ha hoff)
  | allocated b c _ hn _ => exact Memory.wf_put hwf hn (BankArray.wf_zeros (s.reg c).isLt)
  | freed => exact Memory.wf_delete hwf
  | replaced b c a _ _ hfind _ => exact Memory.wf_put hwf (by decide) (Memory.wf_find hwf hfind).1

theorem step_keeps_wf {s t : State} (h : step s = .next t) (hwf : Memory.wf s.bank = true) : Memory.wf t.bank = true := by
  rcases step_cases h with ⟨w, -, -, hexec⟩ | ⟨a, -, -, -, rfl⟩ | ⟨c, -, rfl⟩
  · exact (exec_effect hexec).keeps_wf hwf
  · exact hwf
  · rwa [awaitAnswer_bank]

/-- Output empties the staging, and no other effect writes it (43_io.md R152). -/
theorem Effect.keeps_empty_staging {i : Instr} {s t : State} (h : Effect i s t) (hempty : s.outStaging = none) :
    t.outStaging = none := by
  cases h with
  | unchanged | register | amended | allocated | freed | jumped | replaced | requested | halted | aborted => exact hempty
  | emitted => rfl

theorem step_keeps_empty_staging {s t : State} (h : step s = .next t) (hempty : s.outStaging = none) :
    t.outStaging = none := by
  rcases step_cases h with ⟨w, -, -, hexec⟩ | ⟨a, -, -, -, rfl⟩ | ⟨c, -, rfl⟩
  · exact (exec_effect hexec).keeps_empty_staging hempty
  · exact hempty
  · rcases awaitAnswer_cases c s with ⟨-, he⟩ | ⟨a, rest, -, he⟩ <;> rw [he] <;> exact hempty

/-- Settles O52: each clause of the invariant is kept on its own. -/
theorem stepKeepsTheInvariant : Obligations.StepKeepsTheInvariant := by
  unfold Obligations.StepKeepsTheInvariant
  exact fun s t hinv h =>
    { bank_wf := step_keeps_wf h hinv.bank_wf
      program_present := step_keeps_program h hinv.program_present
      allocator := step_keeps_allocator h hinv.allocator
      staging_empty := step_keeps_empty_staging h hinv.staging_empty }

/-! ### Progress (60_exceptions.md R197) -/

/-- With array 0 present the fetch of a running core finds a Word, which some instruction runs, or raises its fatal condition. -/
theorem exists_step_of_running {s : State} (hrun : s.run = .running) (hprog : Memory.present s.bank 0 = true) :
    ∃ t, step s = .next t := by
  rw [step_of_running hrun, stepRunning]
  rcases fetch_cases s with ⟨hnone, -⟩ | ⟨a, -, -, hfetch⟩ | ⟨a, -, -, hfetch⟩
  · rw [(Memory.present_eq_false_iff _ _).2 hnone] at hprog
    cases hprog
  · rw [hfetch]
    exact ⟨_, rfl⟩
  · rw [hfetch]
    exact everyInstructionAnswersANextState _ _

/-- Settles O10: a running core has a Word or a bound to meet, and a waiting one always steps. -/
theorem unendedRunAlwaysSteps : Obligations.UnendedRunAlwaysSteps := by
  unfold Obligations.UnendedRunAlwaysSteps
  rintro s hinv (hrun | ⟨c, hwait⟩)
  · exact exists_step_of_running hrun hinv.program_present
  · exact ⟨_, step_of_waiting hwait⟩

end Sys2Proof.Machine

/-! ## The run: one observation, and runs without end (40_fetch_decode_execute.md R100, 43_io.md R154) -/

namespace Sys2Proof.Machine

/-! ### One step of a run -/

@[simp] theorem State.run_supply (host : HostInput) (s : State) : (s.supply host).run = s.run := by
  rw [State.supply_eq]

@[simp] theorem State.trace_supply (host : HostInput) (s : State) : (s.supply host).trace = s.trace := by
  rw [State.supply_eq]

theorem MachineInv.supply {s : State} (h : MachineInv s) (host : HostInput) : MachineInv (s.supply host) := by
  rw [State.supply_eq]
  exact ⟨h.bank_wf, h.program_present, h.allocator.congr (fun _ _ => rfl) rfl rfl, h.staging_empty⟩

/-- The host has nothing to do for a running core. -/
theorem runFor_succ_of_running {host : HostInput} {s t : State} (hrun : s.run = .running) (h : step s = .next t) (k : Nat) :
    runFor host (k + 1) s = runFor host k t :=
  runFor_succ_of_next (by rwa [State.supply_of_not_waiting (by simp [hrun])]) k

/-- Where the host answers the pending request, its answer becomes the one that is ready, and the step takes it. -/
theorem runFor_succ_of_answered {host : HostInput} {c : Reg} {a : Answer} {s : State} (hwait : s.run = .awaitInput c)
    (hready : s.hostAnswers = []) (hhost : host s.answersTaken = some a) (k : Nat) :
    runFor host (k + 1) s = runFor host k (s.withAnswer c a []) := by
  refine runFor_succ_of_next ?_ k
  rw [State.supply_of_answered hwait hready hhost]
  exact step_of_answer_ready hwait (congrArg (· ++ [a]) hready)

/-- With the invariant, a step answers a next state or the run has its final indication (R99, 10_state.md R44). -/
theorem MachineInv.steps_or_ended {s : State} (h : MachineInv s) :
    (∃ t, step s = .next t) ∨ ∃ why indication, step s = .fault why ∧ s.indication = some indication := by
  cases hrun : s.run with
  | running => exact .inl (exists_step_of_running hrun h.program_present)
  | awaitInput c => exact .inl ⟨_, step_of_waiting hrun⟩
  | halted => exact .inr ⟨.halted, .success, by simp [step, hrun], by simp [State.indication, hrun]⟩
  | aborted reason =>
    exact .inr ⟨.aborted reason, .failure reason, by simp [step, hrun], by simp [State.indication, hrun]⟩

/-! ### A run under fuel -/

/-- Under any fuel, a run from a state with the invariant uses it up or stops with an indication. -/
theorem MachineInv.runFor_cases {host : HostInput} (fuel : Nat) {s : State} (h : MachineInv s) :
    (∃ t, runFor host fuel s = .outOfFuel t) ∨
    ∃ t why indication, runFor host fuel s = .stopped t why ∧ t.indication = some indication := by
  induction fuel generalizing s with
  | zero => exact .inl ⟨s, rfl⟩
  | succ k ih =>
    rcases (h.supply host).steps_or_ended with ⟨t, hnext⟩ | ⟨why, indication, hfault, hind⟩
    · rw [runFor_succ_of_next hnext]
      exact ih (stepKeepsTheInvariant _ _ (h.supply host) hnext)
    · have hs : s.indication = some indication := by simpa [State.indication] using hind
      exact .inr ⟨s, why, indication, runFor_succ_of_fault hfault k, hs⟩

/-- A run that uses up a fuel took its first step, and used up the rest of the fuel from there. -/
theorem exists_next_of_runFor_succ {host : HostInput} {m : Nat} {s t : State} (h : runFor host (m + 1) s = .outOfFuel t) :
    ∃ u, step (s.supply host) = .next u ∧ runFor host m u = .outOfFuel t := by
  simp only [runFor] at h
  split at h
  next u hnext => exact ⟨u, hnext, h⟩
  · cases h
  · cases h

/-- A run that uses up a fuel uses up every smaller one. -/
theorem runFor_outOfFuel_of_le {host : HostInput} {m n : Nat} {s t : State} (h : runFor host n s = .outOfFuel t)
    (hle : m ≤ n) : ∃ u, runFor host m s = .outOfFuel u := by
  induction m generalizing n s with
  | zero => exact ⟨s, rfl⟩
  | succ m ih =>
    obtain ⟨k, rfl⟩ := Nat.exists_eq_add_of_le' (Nat.le_trans (Nat.le_add_left 1 m) hle)
    obtain ⟨u, hnext, hrest⟩ := exists_next_of_runFor_succ h
    rw [runFor_succ_of_next hnext]
    exact ih hrest (Nat.le_of_succ_le_succ hle)

/-- A run that uses up arbitrarily large fuels has no end. -/
theorem hasNoEnd_of_unbounded {host : HostInput} {s : State} (h : ∀ m, ∃ n t, m ≤ n ∧ runFor host n s = .outOfFuel t) :
    HasNoEnd host s := fun m => by
  obtain ⟨n, t, hle, hrun⟩ := h m
  exact runFor_outOfFuel_of_le hrun hle

theorem not_stopped_of_hasNoEnd {host : HostInput} {s t : State} {why : Fault} {fuel : Nat} (h : HasNoEnd host s) :
    runFor host fuel s ≠ .stopped t why := fun hstop => by
  obtain ⟨u, hu⟩ := h fuel
  cases hstop.symm.trans hu

/-! ### The events of a run (10_state.md R45) -/

/-- The event number `k` of the run from `s`, as `Observes` reads it: some fuel reaches a trace that holds it there. -/
def EventAt (host : HostInput) (s : State) (k : Nat) (e : Event) : Prop :=
  ∃ fuel t, runFor host fuel s = .outOfFuel t ∧ t.trace[k]? = some e

/-- An event of the trace stays where it is through the rest of the run, since a step only adds events at the end. -/
theorem getElem?_trace_of_runFor {host : HostInput} {fuel k : Nat} {e : Event} {s t : State}
    (h : runFor host fuel s = .outOfFuel t) (he : s.trace[k]? = some e) : t.trace[k]? = some e := by
  induction fuel generalizing s with
  | zero =>
    cases h
    exact he
  | succ m ih =>
    obtain ⟨u, hnext, hrest⟩ := exists_next_of_runFor_succ h
    obtain ⟨es, hes, -⟩ := step_trace_grows hnext
    obtain ⟨hk, -⟩ := List.getElem?_eq_some_iff.1 he
    rw [State.trace_supply] at hes
    exact ih hrest (by rw [hes, List.getElem?_append_left hk, he])

/-- The longer of two runs passes through the state that the shorter one came to. -/
theorem getElem?_trace_of_le {host : HostInput} {m n k : Nat} {e : Event} {s t u : State}
    (hm : runFor host m s = .outOfFuel t) (hn : runFor host n s = .outOfFuel u) (hle : m ≤ n)
    (he : t.trace[k]? = some e) : u.trace[k]? = some e := by
  rw [← Nat.add_sub_cancel' hle, runFor_add_of_outOfFuel hm] at hn
  exact getElem?_trace_of_runFor hn he

theorem EventAt.unique {host : HostInput} {s : State} {k : Nat} {e e' : Event} (h : EventAt host s k e)
    (h' : EventAt host s k e') : e = e' := by
  obtain ⟨m, t, hm, he⟩ := h
  obtain ⟨n, u, hn, he'⟩ := h'
  rcases Nat.le_total m n with hle | hle
  · exact Option.some.inj ((getElem?_trace_of_le hm hn hle he).symm.trans he')
  · exact Option.some.inj (he.symm.trans (getElem?_trace_of_le hn hm hle he'))

/-- A relation that gives each number at most one value is the graph of a function to `Option`. -/
theorem exists_option_fun_of_unique {α : Type} {P : Nat → α → Prop} (h : ∀ k a a', P k a → P k a' → a = a') :
    ∃ f : Nat → Option α, ∀ k a, f k = some a ↔ P k a := by
  have pointwise : ∀ k, ∃ o : Option α, ∀ a, o = some a ↔ P k a := fun k => by
    by_cases hex : ∃ a, P k a
    · obtain ⟨a, ha⟩ := hex
      refine ⟨some a, fun b => ⟨fun hb => ?_, fun hb => congrArg some (h k a b ha hb)⟩⟩
      cases hb
      exact ha
    · exact ⟨none, fun b => ⟨fun hb => (by cases hb), fun hb => absurd ⟨b, hb⟩ hex⟩⟩
  choose f hf using pointwise
  exact ⟨f, hf⟩

/-! ### The observation -/

theorem exists_observation {s : State} (h : MachineInv s) (host : HostInput) : ∃ o, Observes host s o := by
  by_cases hend : HasNoEnd host s
  · obtain ⟨event, hevent⟩ := exists_option_fun_of_unique (P := EventAt host s) fun _ _ _ => EventAt.unique
    exact ⟨.noEnd event, hend, hevent⟩
  · obtain ⟨fuel, hfuel⟩ := not_forall.1 hend
    rcases h.runFor_cases (host := host) fuel with hout | ⟨t, why, indication, hstop, hind⟩
    · exact absurd hout hfuel
    · exact ⟨.ends indication t, fuel, why, hstop, hind⟩

/-- Two fuels that both reach the end of the run reach the same one. -/
theorem stopped_unique {host : HostInput} {m n : Nat} {s t u : State} {why why' : Fault}
    (hm : runFor host m s = .stopped t why) (hn : runFor host n s = .stopped u why') : t = u := by
  have hm' := runFor_add_of_stopped hm n
  have hn' := runFor_add_of_stopped hn m
  rw [Nat.add_comm, hm'] at hn'
  cases hn'
  rfl

theorem Observes.unique {host : HostInput} {s : State} {o o' : Observation} (h : Observes host s o)
    (h' : Observes host s o') : o = o' := by
  cases o with
  | ends indication frozen =>
    obtain ⟨m, why, hstop, hind⟩ := h
    cases o' with
    | ends indication' frozen' =>
      obtain ⟨n, why', hstop', hind'⟩ := h'
      cases stopped_unique hstop hstop'
      cases hind.symm.trans hind'
      rfl
    | noEnd event' => exact absurd hstop (not_stopped_of_hasNoEnd h'.1)
  | noEnd event =>
    obtain ⟨hend, hevent⟩ := h
    cases o' with
    | ends indication' frozen' =>
      obtain ⟨n, why', hstop', -⟩ := h'
      exact absurd hstop' (not_stopped_of_hasNoEnd hend)
    | noEnd event' =>
      obtain ⟨-, hevent'⟩ := h'
      have same : event = event' := funext fun k => Option.ext fun e => (hevent k e).trans (hevent' k e).symm
      rw [same]

/-- Settles O56: a run that is not without end stops under some fuel, and neither the stop nor the events depend on the
fuel. -/
theorem runHasExactlyOneObservation : Obligations.RunHasExactlyOneObservation := by
  unfold Obligations.RunHasExactlyOneObservation
  intro host s hinv
  obtain ⟨o, ho⟩ := exists_observation hinv host
  exact ⟨o, ho, fun o' ho' => ho'.unique ho⟩

/-! ### Runs that stay in one state -/

/-- A run whose step answers the state it is in stays there, and adds no event. -/
theorem observes_noEnd_of_step_self {host : HostInput} {s : State} (h : step (s.supply host) = .next s) :
    Observes host s (.noEnd fun k => s.trace[k]?) := by
  have stays : ∀ fuel, runFor host fuel s = .outOfFuel s := fun fuel => by
    induction fuel with
    | zero => rfl
    | succ k ih => rw [runFor_succ_of_next h, ih]
  refine ⟨fun fuel => ⟨s, stays fuel⟩, fun k e => ⟨fun he => ⟨0, s, rfl, he⟩, ?_⟩⟩
  rintro ⟨fuel, t, hrun, he⟩
  cases (stays fuel).symm.trans hrun
  exact he

/-- Settles O57: the jump undoes the fetch advance, so the step answers the state it started from. -/
theorem jumpToItselfHasNoEnd : Obligations.JumpToItselfHasNoEnd := by
  unfold Obligations.JumpToItselfHasNoEnd
  rintro host s w b c ⟨hrun, hword⟩ hload hb hc
  have hself : step s = .next s :=
    calc step s = exec (.loadprog b c) s.advancePc := by rw [step_of_word hrun hword, hload]
      _ = .next (s.advancePc.setPc (s.reg c)) := exec_loadprog_of_eq_zero (s := s.advancePc) hb c
      _ = .next s := by rw [hc]; rfl
  have hsupply : s.supply host = s := State.supply_of_not_waiting (by simp [hrun]) host
  exact observes_noEnd_of_step_self (hsupply.symm ▸ hself)

/-- Settles O58: the host adds no answer, and the wait without one is a step that changes nothing. -/
theorem unansweredInputHasNoEnd : Obligations.UnansweredInputHasNoEnd := by
  unfold Obligations.UnansweredInputHasNoEnd
  intro host c s hwait hready hhost
  apply observes_noEnd_of_step_self
  rw [State.supply_of_unanswered hhost]
  exact waitWithoutAnswerChangesNothing c s hwait hready

/-! ### Runs that the host answers -/

/-- Settles O59: the run takes the step of `runFor_succ_of_answered`, to `State.withAnswer`. -/
theorem hostAnswersThePendingRequest : Obligations.HostAnswersThePendingRequest := by
  unfold Obligations.HostAnswersThePendingRequest
  intro host c a s hwait hready hhost
  have htaken : (s.withAnswer c a []).answersTaken = s.answersTaken + 1 :=
    List.countP_append.trans rfl
  exact ⟨_, runFor_succ_of_answered hwait hready hhost, rfl, rfl, htaken, rfl,
    fun _ => State.toNat_reg_withAnswer_byte, State.reg_withAnswer_endOfStream, regsKeptExcept_withAnswer s c a [], rfl,
    ⟨fun _ _ => rfl, fun _ => rfl⟩, ⟨rfl, rfl⟩, rfl, rfl, rfl⟩

/-! ### A run that is answered forever (43_io.md R154) -/

/-- The program `in r1` and `loadprog r0, r0`: it asks for a byte and jumps back to offset 0, without end. -/
def inputLoop : List Word := [0xB0000001#32, 0xC0000000#32]

/-- The host of R154's example: `EndOfStream` to every request. -/
def endOfStreamForever : HostInput := fun _ => some .endOfStream

/-- The start of a round of the loop: the state after boot, but for register 1 and the trace. -/
def loopState (x : Word) (es : List Event) : State :=
  { (bootState inputLoop true).setReg .r1 x with trace := es }

@[simp] theorem trace_loopState (x : Word) (es : List Event) : (loopState x es).trace = es := rfl

/-- The state of the round that waits: `pc` is past the Input. -/
def loopWaiting (x : Word) (es : List Event) : State :=
  { (loopState x es).advancePc with run := .awaitInput .r1 }

theorem step_loopState (x : Word) (es : List Event) :
    step (loopState x es) = .next (loopWaiting x (es ++ [Event.inReq])) :=
  step_of_word (w := 0xB0000001#32) rfl rfl

/-- The Load Program at offset 1 jumps back to the Input. -/
theorem step_loop_jump (x : Word) (es : List Event) :
    step (loopState x es).advancePc = .next (loopState x es) :=
  step_of_word (w := 0xC0000000#32) rfl rfl

/-- The answer `EndOfStream` puts all ones into register 1. -/
theorem loopWaiting_withAnswer (x : Word) (es : List Event) :
    (loopWaiting x es).withAnswer .r1 .endOfStream [] =
      (loopState 0xFFFFFFFF#32 (es ++ [Event.answer .endOfStream])).advancePc := rfl

/-- One round of the loop is three steps: the request, the answer, and the jump. -/
theorem runFor_loop_round (x : Word) (es : List Event) (fuel : Nat) :
    runFor endOfStreamForever (fuel + 3) (loopState x es) =
      runFor endOfStreamForever fuel (loopState 0xFFFFFFFF#32 (es ++ [Event.inReq] ++ [Event.answer .endOfStream])) := by
  have answered : endOfStreamForever (loopWaiting x (es ++ [Event.inReq])).answersTaken = some .endOfStream := rfl
  rw [runFor_succ_of_running rfl (step_loopState x es), runFor_succ_of_answered rfl rfl answered, loopWaiting_withAnswer,
    runFor_succ_of_running rfl (step_loop_jump _ _)]

/-- After any number of rounds the run is at the start of the next one, with two events for each round. -/
theorem runFor_loop_rounds (rounds : Nat) (x : Word) (es : List Event) : ∃ x' es',
    runFor endOfStreamForever (3 * rounds) (loopState x es) = .outOfFuel (loopState x' es') ∧
      es'.length = es.length + 2 * rounds := by
  induction rounds generalizing x es with
  | zero => exact ⟨x, es, runFor_zero _ _, rfl⟩
  | succ n ih =>
    obtain ⟨x', es', hrun, hlen⟩ := ih 0xFFFFFFFF#32 (es ++ [Event.inReq] ++ [Event.answer .endOfStream])
    refine ⟨x', es', ?_, ?_⟩
    · rw [Nat.mul_succ, runFor_loop_round, hrun]
    · simp only [hlen, List.length_append, List.length_singleton]
      omega

theorem loop_hasNoEnd (x : Word) (es : List Event) : HasNoEnd endOfStreamForever (loopState x es) :=
  hasNoEnd_of_unbounded fun m => by
    obtain ⟨x', es', hrun, -⟩ := runFor_loop_rounds m x es
    exact ⟨3 * m, _, by omega, hrun⟩

/-- Each round puts an answer at the end of the trace, so the answers of the run are at arbitrarily late places. -/
theorem loop_answered_late (n : Nat) :
    ∃ k, n ≤ k ∧ EventAt endOfStreamForever (loopState 0#32 []) k (.answer .endOfStream) := by
  obtain ⟨x, es, hrun, hlen⟩ := runFor_loop_rounds n 0#32 []
  have hround : runFor endOfStreamForever (3 * n + 3) (loopState 0#32 []) =
      .outOfFuel (loopState 0xFFFFFFFF#32 (es ++ [Event.inReq] ++ [Event.answer .endOfStream])) := by
    rw [runFor_add_of_outOfFuel hrun 3, ← Nat.zero_add 3, runFor_loop_round, runFor_zero]
  refine ⟨(es ++ [Event.inReq]).length, ?_, 3 * n + 3, _, hround, ?_⟩
  · simp only [List.length_append, hlen]
    omega
  · rw [trace_loopState, List.getElem?_concat_length]

theorem reachable_loopState : Reachable (loopState 0#32 []) :=
  .boot [0xB0#8, 0#8, 0#8, 1#8, 0xC0#8, 0#8, 0#8, 0#8] true [] none (bootState inputLoop true) rfl

/-- Settles O60: the input loop, booted, has an observation as every run does, and only `noEnd` fits it. -/
theorem runCanBeAnsweredForever : Obligations.RunCanBeAnsweredForever := by
  unfold Obligations.RunCanBeAnsweredForever
  have hinv : MachineInv (loopState 0#32 []) := machineInv_bootState (ws := inputLoop) (by decide) true
  obtain ⟨o, ho⟩ := exists_observation hinv endOfStreamForever
  cases o with
  | ends indication frozen =>
    obtain ⟨_, _, hstop, -⟩ := ho
    exact absurd hstop (not_stopped_of_hasNoEnd (loop_hasNoEnd 0#32 []))
  | noEnd event =>
    refine ⟨_, event, reachable_loopState, ho, fun n => ?_⟩
    obtain ⟨-, hevent⟩ := ho
    obtain ⟨k, hle, hk⟩ := loop_answered_late n
    exact ⟨k, hle, (hevent k _).2 hk⟩

end Sys2Proof.Machine
